-- ==== Sys2Proof/Word.lean ====
section
/-! DEFINITION. The words of the TR3_LAN frame codec.

The spec's quantities are bytes (00_scope.md R9), the 11-bit command word (30_encoding.md R67) and
unsigned counts. Counts (`need`, `blen`, `plen`) are naturals, as R7 and R9 ask of a model. -/

namespace Sys2Proof

/-- A byte, bit 7 the most significant (00_scope.md R9). -/
abbrev Byte := BitVec 8

/-- The command word `CW` (30_encoding.md R67). -/
abbrev CommandWord := BitVec 11

/-- The operation code `CW[10:8]` (30_encoding.md R67). -/
abbrev OpCode := BitVec 3

end Sys2Proof
end

