-- ==== Sys2Proof/Config.lean ====
section
/-! DEFINITION. What is fixed when the block is built: the wire constants, the sizes, and the one open
parameter `P_COMPLETE_PUSH`. None of it is state (10_state.md R28). -/

namespace Sys2Proof

namespace Config

/-- Frame start marker (00_scope.md R5). -/
def STX : Byte := 0x02

/-- Frame end marker (00_scope.md R5). -/
def ETX : Byte := 0x03

/-- Frame terminator (00_scope.md R5). -/
def CR : Byte := 0x0D

/-- Bytes of `STX, ADDR, CMD, LEN` (00_scope.md R5). -/
def HEADER_LEN : Nat := 4

/-- Bytes of `ETX, SUM, CR` (00_scope.md R5). -/
def FOOTER_LEN : Nat := 3

/-- The longest payload `ENCODE` accepts (00_scope.md R5). -/
def MAX_PAYLOAD : Nat := 255

/-- The length of a frame with `l` payload bytes (00_scope.md R6). -/
def frameLen (l : Nat) : Nat := HEADER_LEN + l + FOOTER_LEN

/-- The shortest frame, 7 bytes (00_scope.md R6). -/
def MIN_FRAME : Nat := frameLen 0

/-- The longest frame, 262 bytes (00_scope.md R6). -/
def MAX_FRAME : Nat := frameLen MAX_PAYLOAD

/-- The largest value of the counter `need` (00_scope.md R6). -/
def NEED_MAX : Nat := MAX_PAYLOAD + FOOTER_LEN

/-- The size of the buffer space, addresses 0 to 261 (00_scope.md R7, 20_memory.md R40). -/
def BUF_CAP : Nat := 262

end Config

/-- The two values of the open parameter `P_COMPLETE_PUSH` (00_scope.md R8, 41_stream_parser.md R97). -/
inductive CompletePush where
  /-- The byte pushed while a completed frame waits is discarded. -/
  | drop
  /-- That byte is then treated as a byte seen in `SeekingStart`. -/
  | reprocess
deriving DecidableEq, Repr, Inhabited

/-- `P_COMPLETE_PUSH`, which the source leaves open (92_eei_decisions.md D9) and which no operation can
read or write (10_state.md R28). It has no body: no proof can learn its value, so a theorem about the
machine holds for both settings. DESIGN CHOICE, safe; log 1. -/
opaque Config.completePush : CompletePush

end Sys2Proof
end

