-- ==== Sys2Proof/Syntax.lean ====
section
/-! DEFINITION. The operations of the block (30_encoding.md R68) and the form in which a caller issues one:
a command word and the operand port (30_encoding.md R67). -/

namespace Sys2Proof

/-- One constructor per row of the operation table (30_encoding.md R68). -/
inductive Instr where
  /-- `RESET` (41_stream_parser.md R90). -/
  | reset
  /-- `PUSH din` (41_stream_parser.md R91). -/
  | push (din : Byte)
  /-- `TAKE` (41_stream_parser.md R98). -/
  | take
  /-- `TAKE_RAW` (41_stream_parser.md R99). -/
  | takeRaw
  /-- `ENCODE` with its operand port: `addr`, `cmd`, `plen`, `pdata` (40_frame_builder.md R80). -/
  | encode (addr cmd : Byte) (plen : Nat) (pdata : List Byte)
deriving DecidableEq, Repr

/-- The operand port of `ENCODE` (30_encoding.md R67): `plen` is an unbounded natural in a model. -/
structure OperandPort where
  addr : Byte
  cmd : Byte
  plen : Nat
  pdata : List Byte
deriving DecidableEq, Repr

/-- What the port carries when no operand is placed on it: zeros and no payload. -/
def OperandPort.idle : OperandPort := { addr := 0, cmd := 0, plen := 0, pdata := [] }

/-- One operation as the caller issues it: its command word and the operand port. -/
structure Request where
  cw : CommandWord
  port : OperandPort
deriving DecidableEq, Repr

end Sys2Proof
end

