-- ==== Sys2Proof/WellFormed.lean ====
section
/-! DEFINITION. Which operations are well formed. The one relation between operand fields that the spec
demands is that `plen` is the length of `pdata` (40_frame_builder.md R80). A payload over 255 bytes is well
formed: `ENCODE` refuses it with an error result (R83). -/

namespace Sys2Proof

/-- `plen = |pdata|` on the operand port of `ENCODE`; nothing is asked of the other operations. -/
def Instr.wellFormed : Instr → Bool
  | .reset => true
  | .push _ => true
  | .take => true
  | .takeRaw => true
  | .encode _ _ plen pdata => plen == pdata.length

/-- The same relation on an operand port, whatever the command word. -/
def OperandPort.wellFormed (p : OperandPort) : Bool := p.plen == p.pdata.length

end Sys2Proof
end

