-- ==== Sys2Proof/Decode.lean ====
section
/-! DEFINITION. The command word: its two fields, the operation table with match and mask, the decoder and
the encoder (30_encoding.md R67 to R69). The operation codes are the spec's own (92_eei_decisions.md D2). -/

namespace Sys2Proof

/-- `op = CW[10:8]` (30_encoding.md R67). -/
def opField (cw : CommandWord) : OpCode := cw.extractLsb' 8 3

/-- `din = CW[7:0]` (30_encoding.md R67). -/
def dinField (cw : CommandWord) : Byte := cw.extractLsb' 0 8

/-- A command word from its two fields. -/
def commandWord (op : OpCode) (din : Byte) : CommandWord := op ++ din

/-- Why the decoder rejects a command word. -/
inductive DecodeError where
  /-- `op` is 5, 6 or 7, which are reserved (30_encoding.md R69). The machine answers it with the error
  result `IllegalOp`. -/
  | reservedOp (op : OpCode)
deriving DecidableEq, Repr

/-- The decoder, total on every command word and operand port. `din` is read for `PUSH` alone and the
operand port for `ENCODE` alone (30_encoding.md R67). -/
def decode (r : Request) : Except DecodeError Instr :=
  match (opField r.cw).toNat with
  | 0 => .ok .reset
  | 1 => .ok (.push (dinField r.cw))
  | 2 => .ok .take
  | 3 => .ok .takeRaw
  | 4 => .ok (.encode r.port.addr r.port.cmd r.port.plen r.port.pdata)
  | _ => .error (.reservedOp (opField r.cw))

/-- The operation code of each operation (30_encoding.md R68). -/
def Instr.opCode : Instr → OpCode
  | .reset => 0
  | .push _ => 1
  | .take => 2
  | .takeRaw => 3
  | .encode _ _ _ _ => 4

/-- The byte that goes into `CW[7:0]`: the operand of `PUSH`, and zero where it is ignored
(30_encoding.md R73, 92_eei_decisions.md D28). -/
def Instr.din : Instr → Byte
  | .reset => 0
  | .push din => din
  | .take => 0
  | .takeRaw => 0
  | .encode _ _ _ _ => 0

/-- What goes onto the operand port: the operands of `ENCODE`, and nothing for the others. -/
def Instr.port : Instr → OperandPort
  | .reset => OperandPort.idle
  | .push _ => OperandPort.idle
  | .take => OperandPort.idle
  | .takeRaw => OperandPort.idle
  | .encode addr cmd plen pdata => { addr := addr, cmd := cmd, plen := plen, pdata := pdata }

/-- The encoder: the command word and operand port to which an operation assembles (30_encoding.md R73). -/
def encode (i : Instr) : Request := { cw := commandWord i.opCode i.din, port := i.port }

/-- One row of the operation table of 30_encoding.md R68. -/
structure OpRow where
  mnemonic : String
  pattern : CommandWord
  mask : CommandWord
deriving DecidableEq, Repr

/-- The operation table as R68 prints it: mnemonic, match, mask. -/
def opTable : List OpRow :=
  [ ⟨"RESET", 0x000, 0x700⟩, ⟨"PUSH", 0x100, 0x700⟩, ⟨"TAKE", 0x200, 0x700⟩,
    ⟨"TAKE_RAW", 0x300, 0x700⟩, ⟨"ENCODE", 0x400, 0x700⟩ ]

/-- The mnemonic of an operation in that table. -/
def Instr.mnemonic : Instr → String
  | .reset => "RESET"
  | .push _ => "PUSH"
  | .take => "TAKE"
  | .takeRaw => "TAKE_RAW"
  | .encode _ _ _ _ => "ENCODE"

/-- A row selects a command word when `CW & mask = match` (30_encoding.md R68). -/
def OpRow.selects (row : OpRow) (cw : CommandWord) : Bool := (cw &&& row.mask) == row.pattern

/-- An instruction of the host, numbered as the opcode table numbers its bits: the 11 low bits are the
command word, and the operand port holds zeros and no payload. The command word is the only word the block
takes, so the bits above bit 10 have no wire. DESIGN CHOICE; log 13. -/
def Request.ofTableWord (w : Nat) : Request := { cw := BitVec.ofNat 11 w, port := OperandPort.idle }

/-- The instruction the decoder reads from a table word; none where the operation code is reserved. -/
def decodeTableWord (_nbits w : Nat) : Option Instr :=
  match decode (Request.ofTableWord w) with
  | .ok i => some i
  | .error _ => none

end Sys2Proof
end

