-- ==== Sys2Proof/Machine/State.lean ====
section
/-! DEFINITION. The state of the block as plain data: the triple (`st`, `need`, `buf`) of one parser
instance (10_state.md R24), and beside it the model's own interface fields. Also the result triple of an
operation (00_scope.md R10) and the reasons a step can stop. -/

namespace Sys2Proof.Machine

/-- The parser's mode (10_state.md R20): four values, `Complete` being a lasting state. -/
inductive ParserState where
  | seekingStart
  | readingHeader
  | readingPayloadAndFooter
  | complete
deriving DecidableEq, Repr

/-- The buffer space (20_memory.md R40) as cells (address, byte). Its canonical form is `Memory.wf` in
Machine/Ops.lean: addresses 0, 1, 2 and so on without a gap, at most 262 of them. -/
abbrev Memory := List Host.Cell

/-- What an address holds that no cell lists: no value. Only addresses below `blen` hold one
(20_memory.md R40, 10_state.md R23). -/
def Memory.unlisted : Option Byte := none

/-- The error code of an operation's result (60_exceptions.md R140). -/
inductive ErrCode where
  /-- The operation succeeded. -/
  | ok
  /-- `ENCODE` with `plen > 255` (R141). -/
  | payloadTooLarge
  /-- `TAKE` or `TAKE_RAW` with no completed frame (R142). -/
  | notReady
  /-- A reserved operation code (R143). -/
  | illegalOp
deriving DecidableEq, Repr

/-- The structured form of a frame (30_encoding.md R63). -/
structure Fields where
  address : Byte
  command : Byte
  payload : List Byte
deriving DecidableEq, Repr

/-- The data part of a result (00_scope.md R10). -/
inductive Data where
  | none
  /-- The record `TAKE` returns. -/
  | fields (f : Fields)
  /-- The byte sequence `TAKE_RAW` and `ENCODE` return. -/
  | bytes (bs : List Byte)
deriving DecidableEq, Repr

/-- The result triple of an operation (00_scope.md R10). -/
structure Result where
  err : ErrCode
  frameReady : Bool
  data : Data
deriving DecidableEq, Repr

/-- Why the model stops where the spec describes nothing. None of these is an error of the block: the
block's errors are results (60_exceptions.md R148). No state that a run from reset reaches raises one
(10_state.md R30), but for `payloadAddress`, which the caller causes. -/
inductive Fault where
  /-- Raised by `PUSH` in `ReadingHeader` or `ReadingPayloadAndFooter` with `need = 0`, where `need - 1` is
  never applied (30_encoding.md R66, 41_stream_parser.md R91). Safe: the machine stops. -/
  | needUnderflow
  /-- Raised by an access to a buffer address that does not exist (20_memory.md R40: 0 to 261) or that holds
  no value (10_state.md R23): an append to a full buffer, a read at or beyond `blen`. Safe. -/
  | bufferAddress (addr : Nat)
  /-- Raised by the completing push when fewer than 7 bytes are buffered with it, where `tail_ok` is not
  defined (41_stream_parser.md R100). Safe. -/
  | shortFrame (len : Nat)
  /-- Raised by `ENCODE` when the operand port holds fewer than `plen` payload bytes, against
  40_frame_builder.md R80: the byte at this payload address does not exist (20_memory.md R42). Safe; log 9. -/
  | payloadAddress (addr : Nat)
deriving DecidableEq, Repr

/-- Why the model gives an operation no meaning. -/
inductive Refusal where
  /-- Raised by an arm of `exec` whose operation has no meaning yet. No arm does: every operation of the
  table is modelled. Safe. -/
  | notModelled (mnemonic : String)
deriving DecidableEq, Repr

/-- The machine. The first three fields are the block's whole state (10_state.md R24). -/
structure State where
  /-- The parser's mode (10_state.md R20). -/
  st : ParserState
  /-- The "bytes still needed" counter (10_state.md R21). -/
  need : Nat
  /-- The accumulation buffer (10_state.md R22). -/
  buf : Memory
  /-- The MODEL's own: the operations the caller has issued and the block has not yet performed, oldest
  first. It is input, not a stored program (10_state.md R25); log 2. -/
  queue : List Request
  /-- The MODEL's own: the result triple of the latest operation, none before the first; log 4. -/
  result : Option Result
  /-- The MODEL's own: the sticky mark that 60_exceptions.md R149 allows and R142 and R143 advise. No
  operation reads it; log 5. -/
  faultMark : Bool
deriving DecidableEq, Repr

/-- Power-on reset (10_state.md R32, 70_reset_and_hazards.md R160): the parser seeks with nothing buffered.
Nothing is issued, no result exists and the run is unmarked; logs 2, 4, 5 and 6. -/
def State.reset : State :=
  { st := .seekingStart, need := 0, buf := [], queue := [], result := none, faultMark := false }

end Sys2Proof.Machine
end

