-- ==== Sys2Proof/Machine/Flags.lean ====
section
/-! DEFINITION. The values computed from byte sequences: the checksum (30_encoding.md R65), the tail check
(41_stream_parser.md R100), the valid frame (30_encoding.md R62), and the numeric codes of 10_state.md R29
and 60_exceptions.md R140. The block has no carry, zero, sign or overflow flag (10_state.md R26). -/

namespace Sys2Proof.Machine

/-- `Σ s`: the sum of the bytes as an unbounded natural (00_scope.md section 5). -/
def byteSum (s : List Byte) : Nat := (s.map BitVec.toNat).sum

/-- `sum8(s) = (Σ s) mod 256` (30_encoding.md R65). -/
def sum8 (s : List Byte) : Byte := BitVec.ofNat 8 (byteSum s)

/-- `tail_ok(f)`: the terminator, the end marker and the checksum stand at their places, counted from the
end (41_stream_parser.md R100). R100 defines it for `|f| ≥ 7`. -/
def tailOk (f : List Byte) : Bool :=
  f[f.length - 1]? == some Config.CR
    && f[f.length - 3]? == some Config.ETX
    && f[f.length - 2]? == some (sum8 (f.take (f.length - 2)))

/-- `f` is a valid frame: the six conditions of 30_encoding.md R62. -/
def validFrame (f : List Byte) : Bool :=
  Config.MIN_FRAME ≤ f.length
    && f[0]? == some Config.STX
    && f[3]?.map (fun l => Config.frameLen l.toNat) == some f.length
    && f[f.length - 3]? == some Config.ETX
    && f[f.length - 2]? == some (sum8 (f.take (f.length - 2)))
    && f[f.length - 1]? == some Config.CR

/-- The two-bit encoding of the parser's mode, observable through nothing (10_state.md R29). -/
def ParserState.code : ParserState → BitVec 2
  | .seekingStart => 0
  | .readingHeader => 1
  | .readingPayloadAndFooter => 2
  | .complete => 3

/-- The number of an error code (60_exceptions.md R140). -/
def ErrCode.code : ErrCode → BitVec 2
  | .ok => 0
  | .payloadTooLarge => 1
  | .notReady => 2
  | .illegalOp => 3

/-- Which errors set the model's sticky mark: the two that 60_exceptions.md R142 and R143 ask a model to
treat as a fault of the run. DESIGN CHOICE; log 5. -/
def ErrCode.marks : ErrCode → Bool
  | .ok => false
  | .payloadTooLarge => false
  | .notReady => true
  | .illegalOp => true

end Sys2Proof.Machine
end

