-- ==== Sys2Proof/Machine/Ops.lean ====
section
/-! DEFINITION. The shared operations: the buffer space, the parser's state changes, the end of an operation
with a result or with an error, and the fetch of the next issued operation. -/

namespace Sys2Proof.Machine

/-- The outcome type of this machine. -/
abbrev Out := Host.Outcome State Fault Refusal

/-! ## The buffer space (20_memory.md R40, R46) -/

/-- The byte at an address, if the address holds one. -/
def Memory.read (m : Memory) (a : Nat) : Option Byte :=
  match List.lookup a m with
  | some b => some b
  | none => Memory.unlisted

/-- `blen` (10_state.md R23). -/
def Memory.blen (m : Memory) : Nat := m.length

/-- The buffered bytes in arrival order (10_state.md R22). -/
def Memory.bytes (m : Memory) : List Byte := m.map Prod.snd

/-- The address `PUSH` writes when it accumulates: `blen` (41_stream_parser.md R111). -/
def Memory.appendAddress (m : Memory) : Nat := m.blen

/-- `buf <- buf ++ [b]`: one byte written at address `blen`, which must be an address of the buffer space. -/
def Memory.append (m : Memory) (b : Byte) : Except Fault Memory :=
  if Memory.blen m < Config.BUF_CAP then .ok (m ++ [(Memory.appendAddress m, b)])
  else .error (.bufferAddress (Memory.blen m))

/-- `buf <- []` (10_state.md R22). -/
def Memory.clear : Memory := []

/-- A buffer that holds the given bytes from address 0 on. -/
def Memory.ofBytes (bs : List Byte) : Memory := (List.range bs.length).zip bs

/-- The canonical form: the cells' addresses are 0, 1, ..., `blen - 1` in this order, all of them addresses
of the buffer space. They therefore rise strictly, and equal buffers are equal lists. -/
abbrev Memory.wf (m : Memory) : Prop :=
  m.map Prod.fst = List.range m.length ∧ m.length ≤ Config.BUF_CAP

/-- A read of one buffered byte: an address that holds no value stops the machine. -/
def Memory.cell (m : Memory) (a : Nat) : Except Fault Byte :=
  match Memory.read m a with
  | some b => .ok b
  | none => .error (.bufferAddress a)

/-- The bytes at `n` addresses from `a` on, read one by one. -/
def Memory.cells (m : Memory) : (a n : Nat) → Except Fault (List Byte)
  | _, 0 => .ok []
  | a, n + 1 =>
    match Memory.cell m a with
    | .error f => .error f
    | .ok b =>
      match Memory.cells m (a + 1) n with
      | .error f => .error f
      | .ok bs => .ok (b :: bs)

/-! ## The parser's state changes -/

/-- `buf <- []; need <- 0; st <- SeekingStart`: the effect of `RESET`, of a successful extraction and of the
silent `resync()` (10_state.md R32, 41_stream_parser.md R96). -/
def resync (s : State) : State := { s with st := .seekingStart, need := 0, buf := Memory.clear }

/-- `buf <- [STX]; need <- 3; st <- ReadingHeader` (41_stream_parser.md R92). -/
def startFrame (s : State) : State :=
  { s with st := .readingHeader, need := Config.HEADER_LEN - 1, buf := Memory.ofBytes [Config.STX] }

/-- A byte seen in `SeekingStart`: an `STX` starts a frame, any other byte is discarded without a trace
(41_stream_parser.md R92). -/
def seek (b : Byte) (s : State) : State := if b = Config.STX then startFrame s else s

/-- `buf <- buf ++ [b]; need <- need - 1` (41_stream_parser.md R93, R94). -/
def accumulate (b : Byte) (s : State) : Except Fault State :=
  if s.need = 0 then .error .needUnderflow
  else
    match Memory.append s.buf b with
    | .error f => .error f
    | .ok m => .ok { s with buf := m, need := s.need - 1 }

/-! ## The end of an operation -/

/-- `return v`: the operation ends with error code `OK` (00_scope.md R10). -/
def deliver (ready : Bool) (d : Data) (s : State) : State :=
  { s with result := some { err := .ok, frameReady := ready, data := d } }

/-- `raise E`, the block's whole exception mechanism (60_exceptions.md R148): the operation ends at once,
writes no state element, returns no data, reports `frame_ready = false` and the error code. There is no
saved state, no mode and no vector, and so no return from an error (R149). The model's own sticky mark is
set for the errors that R142 and R143 ask a model to treat as a fault of the run; log 5. -/
def raiseError (e : ErrCode) (s : State) : State :=
  { s with result := some { err := e, frameReady := false, data := .none },
           faultMark := s.faultMark || e.marks }

/-- The outcome of a computation that may stop the machine. -/
def settle : Except Fault State → Out
  | .ok s => .next s
  | .error f => .fault f

/-! ## The next issued operation -/

/-- The oldest operation not yet performed, and the machine with it taken from the queue. Operations form one
sequence and none overlaps another (20_memory.md R49, R50). -/
def fetch (s : State) : Option (Request × State) :=
  match s.queue with
  | [] => none
  | r :: rest => some (r, { s with queue := rest })

/-- The answer to a command word that the decoder rejects: `IllegalOp`, no state changed
(30_encoding.md R69, 60_exceptions.md R143). -/
def reject (e : DecodeError) (s : State) : State :=
  match e with
  | .reservedOp _ => raiseError .illegalOp s

/-- The caller issues an operation that is performed before those already waiting. -/
def issueFirst (r : Request) (s : State) : State := { s with queue := r :: s.queue }

end Sys2Proof.Machine
end

