-- ==== Sys2Proof/Machine/Operands.lean ====
section
/-! DEFINITION. Operand forms: the length byte widened to a count (30_encoding.md R64), the fields of a
frame (30_encoding.md R63), and the payload slice of the operand port (20_memory.md R42). -/

namespace Sys2Proof.Machine

/-- `zext_9(LEN) + 3`: payload, `ETX`, `SUM` and `CR` still to come. The addition is on naturals and does
not wrap (30_encoding.md R64). -/
def tailLength (len : Byte) : Nat := len.toNat + Config.FOOTER_LEN

/-- The counter's new value when the header is complete, from the byte at address 3 (41_stream_parser.md R93). -/
def payloadNeed (m : Memory) : Except Fault Nat :=
  match Memory.cell m 3 with
  | .error f => .error f
  | .ok len => .ok (tailLength len)

/-- The record `TAKE` returns, read from addresses 1, 2, 3 and 4 to `3 + LEN` (41_stream_parser.md R98, R111). -/
def readFields (m : Memory) : Except Fault Fields := do
  let address ← Memory.cell m 1
  let command ← Memory.cell m 2
  let len ← Memory.cell m 3
  let payload ← Memory.cells m Config.HEADER_LEN len.toNat
  pure { address := address, command := command, payload := payload }

/-- `decode_fields(f)`, defined on valid frames only (30_encoding.md R63). -/
def decodeFields (f : List Byte) : Option Fields :=
  if validFrame f then
    match f[1]?, f[2]?, f[3]? with
    | some a, some c, some l => some { address := a, command := c, payload := (f.drop 4).take l.toNat }
    | _, _, _ => none
  else none

/-- `pdata[0 .. plen)` (30_encoding.md R67). The slice is defined when the port holds at least `plen` bytes;
the first missing address stops the machine. DESIGN CHOICE, safe; log 9. -/
def payloadSlice (pdata : List Byte) (plen : Nat) : Except Fault (List Byte) :=
  if plen ≤ pdata.length then .ok (pdata.take plen) else .error (.payloadAddress pdata.length)

end Sys2Proof.Machine
end

