-- ==== Sys2Proof/Machine/Builder.lean ====
section
/-! DEFINITION. The Frame Builder: the operation `ENCODE` (40_frame_builder.md). -/

namespace Sys2Proof.Machine

/-- The bytes `STX` to `ETX` of a frame, as placed in the result (40_frame_builder.md R80). -/
def framePrefix (addr cmd : Byte) (plen : Nat) (payload : List Byte) : List Byte :=
  [Config.STX, addr, cmd, BitVec.ofNat 8 plen] ++ payload ++ [Config.ETX]

/-- The whole frame. The checksum is computed over the bytes already placed (40_frame_builder.md R81). -/
def buildFrame (addr cmd : Byte) (plen : Nat) (payload : List Byte) : List Byte :=
  let pre := framePrefix addr cmd plen payload
  pre ++ [sum8 pre, Config.CR]

/-- `ENCODE` (40_frame_builder.md R80): the size check comes first (R83), the parser is neither read nor
written (R84), and the result is one whole sequence (R85). -/
def execEncode (addr cmd : Byte) (plen : Nat) (pdata : List Byte) (s : State) : Out :=
  if Config.MAX_PAYLOAD < plen then .next (raiseError .payloadTooLarge s)
  else
    match payloadSlice pdata plen with
    | .error f => .fault f
    | .ok payload => .next (deliver false (.bytes (buildFrame addr cmd plen payload)) s)

end Sys2Proof.Machine
end

