-- ==== Sys2Proof/Machine/Parser.lean ====
section
/-! DEFINITION. The Stream Parser: `RESET`, `PUSH`, `TAKE`, `TAKE_RAW` (41_stream_parser.md). -/

namespace Sys2Proof.Machine

/-- `RESET` (41_stream_parser.md R90): the reset state, from any state. -/
def execReset (s : State) : Out := .next (deliver false .none (resync s))

/-- `PUSH` in `SeekingStart` (41_stream_parser.md R92). -/
def pushSeeking (b : Byte) (s : State) : State := deliver false .none (seek b s)

/-- `PUSH` in `ReadingHeader` (41_stream_parser.md R93). The byte that brings `need` to 0 is the length byte,
and the next push is governed by it (20_memory.md R52). -/
def pushHeader (b : Byte) (s : State) : Except Fault State := do
  let t ← accumulate b s
  if t.need = 0 then
    let n ← payloadNeed t.buf
    pure (deliver false .none { t with need := n, st := .readingPayloadAndFooter })
  else
    pure (deliver false .none t)

/-- The completing push, the byte already accumulated: a valid frame is kept for extraction
(41_stream_parser.md R95), a malformed one is dropped in silence (R96, 60_exceptions.md R144). -/
def completeFrame (t : State) : Except Fault State :=
  if Memory.blen t.buf < Config.MIN_FRAME then .error (.shortFrame (Memory.blen t.buf))
  else if tailOk (Memory.bytes t.buf) then .ok (deliver true .none { t with st := .complete })
  else .ok (deliver false .none (resync t))

/-- `PUSH` in `ReadingPayloadAndFooter` (41_stream_parser.md R91, R94 to R96). -/
def pushPayload (b : Byte) (s : State) : Except Fault State := do
  let t ← accumulate b s
  if t.need = 0 then completeFrame t else pure (deliver false .none t)

/-- `PUSH` in `Complete` (41_stream_parser.md R97): the frame is lost, and `P_COMPLETE_PUSH` decides whether
the byte is then examined. -/
def pushComplete (p : CompletePush) (b : Byte) (s : State) : State :=
  match p with
  | .drop => deliver false .none (resync s)
  | .reprocess => deliver false .none (seek b (resync s))

/-- `PUSH` with the open parameter as an argument (00_scope.md R8): the dispatch on `st` of
41_stream_parser.md R91. -/
def execPushWith (p : CompletePush) (b : Byte) (s : State) : Out :=
  match s.st with
  | .seekingStart => .next (pushSeeking b s)
  | .readingHeader => settle (pushHeader b s)
  | .readingPayloadAndFooter => settle (pushPayload b s)
  | .complete => .next (pushComplete p b s)

/-- `PUSH` (41_stream_parser.md R91). -/
def execPush (b : Byte) (s : State) : Out := execPushWith Config.completePush b s

/-- An extraction (41_stream_parser.md R98, R99): the data read, then the parser cleared. Without a completed
frame it raises `NotReady` (60_exceptions.md R142). -/
def extract (read : Memory → Except Fault Data) (s : State) : Out :=
  if s.st = .complete then
    match read s.buf with
    | .error f => .fault f
    | .ok d => .next (deliver false d (resync s))
  else .next (raiseError .notReady s)

/-- What `TAKE` reads. -/
def takeData (m : Memory) : Except Fault Data :=
  match readFields m with
  | .error f => .error f
  | .ok r => .ok (.fields r)

/-- `TAKE` (41_stream_parser.md R98). -/
def execTake (s : State) : Out := extract takeData s

/-- `TAKE_RAW` (41_stream_parser.md R99): all buffered bytes in order. -/
def execTakeRaw (s : State) : Out := extract (fun m => .ok (.bytes (Memory.bytes m))) s

end Sys2Proof.Machine
end

