-- ==== Sys2Proof/Machine/Dispatch.lean ====
section
/-! DEFINITION. One arm per operation of the table (30_encoding.md R68). -/

namespace Sys2Proof.Machine

def exec (i : Instr) (s : State) : Host.Outcome State Fault Refusal :=
  match i with
  | .reset => Sys2Proof.Machine.execReset s
  | .push din => Sys2Proof.Machine.execPush din s
  | .take => Sys2Proof.Machine.execTake s
  | .takeRaw => Sys2Proof.Machine.execTakeRaw s
  | .encode addr cmd plen pdata => Sys2Proof.Machine.execEncode addr cmd plen pdata s

end Sys2Proof.Machine
end

