-- ==== Sys2Proof/Machine/Step.lean ====
section
/-! DEFINITION. One step: the block performs the oldest operation issued to it (20_memory.md R47, R50). The
block takes no step of its own between operations (41_stream_parser.md R106). -/

namespace Sys2Proof.Machine

/-- One operation is one step (00_scope.md R11). A reserved operation code ends in the error result
`IllegalOp`. With nothing issued the block is idle and keeps its state (60_exceptions.md section 12);
DESIGN CHOICE, log 3. -/
def step (s : State) : Host.Outcome State Fault Refusal :=
  match fetch s with
  | none => .next s
  | some (r, t) =>
    match decode r with
    | .ok i => exec i t
    | .error e => .next (reject e t)

/-- The caller issues the command word `w` as the next operation, with an idle operand port; log 2, log 13. -/
def State.withFetchWord (s : State) (_nbits w : Nat) : State := issueFirst (Request.ofTableWord w) s

end Sys2Proof.Machine
end

