-- ==== Sys2Proof/Machine/Pseudo.lean ====
section
/-! DEFINITION. Sequences of operations on one parser, the pseudo-operations of 30_encoding.md R74 among them. -/

namespace Sys2Proof.Machine

/-- One operation performed: its result triple and the state after it, none where the machine stops. -/
def perform (i : Instr) (s : State) : Option (Result × State) :=
  match exec i s with
  | .next t => t.result.map fun r => (r, t)
  | .fault _ => none
  | .refused _ => none

/-- Operations performed one after the other on one parser, with their result triples in order
(20_memory.md R50). -/
def performAll : List Instr → State → Option (List Result × State)
  | [], s => some ([], s)
  | i :: is, s =>
    match perform i s with
    | none => none
    | some (r, t) =>
      match performAll is t with
      | none => none
      | some (rs, u) => some (r :: rs, u)

/-- `PUSHN [b0 ... bk]`: the list of the `frame_ready` results, in order (30_encoding.md R74). -/
def pushN : List Byte → State → Option (List Bool × State)
  | [], s => some ([], s)
  | b :: bs, s =>
    match perform (.push b) s with
    | none => none
    | some (r, t) =>
      match pushN bs t with
      | none => none
      | some (flags, u) => some (r.frameReady :: flags, u)

/-- `DECODE [b0 ... bk]`: `RESET`, the pushes, `TAKE`; the result of the final `TAKE` (30_encoding.md R74). -/
def decodeFrame (bs : List Byte) (s : State) : Option (Result × State) :=
  match perform .reset s with
  | none => none
  | some (_, t) =>
    match pushN bs t with
    | none => none
    | some (_, u) => perform .take u

/-- `ENCODE c, [p...]` with the address omitted: the address is 0 (30_encoding.md R74). -/
def encodeDefaultAddress (cmd : Byte) (pdata : List Byte) (s : State) : Option (Result × State) :=
  perform (.encode 0x00 cmd pdata.length pdata) s

end Sys2Proof.Machine
end

