-- ==== Sys2Proof/Machine/Client.lean ====
section
/-! DEFINITION. The block's environment (42_client_environment.md), outside the block (00_scope.md R3): the
Transactional Client as a procedure over the block's operations, the Transport as a script of answers that a
claim quantifies over (R121), and the two designs of 42_client_environment.md R132, one parser per call or one
per connection, as a parameter (93_implementation_defined.md U1). No part of State and not called by `step`;
logs 14 and 18. -/

namespace Sys2Proof.Machine

/-- An answer of `receive_byte` (42_client_environment.md R120). -/
inductive Received where
  | byte (b : Byte)
  | timeout
  | closed
deriving DecidableEq, Repr

/-- An answer of `send` (42_client_environment.md R120). -/
inductive SendAnswer where
  | sent
  | networkError
deriving DecidableEq, Repr

/-- The Transport's answers in the order of the calls. A script that ends is a call that has not returned. -/
structure Transport where
  received : List Received
  sends : List SendAnswer
deriving DecidableEq, Repr

/-- What a client call returns on success (42_client_environment.md R123). -/
structure Reply where
  command : Byte
  payload : List Byte
  raw : List Byte
deriving DecidableEq, Repr

/-- How a client call stands when the Transport's script is used up or the call has ended. -/
inductive CallResult where
  | reply (r : Reply)
  | timeout
  | networkError
  /-- The call is still waiting for an answer of the Transport. -/
  | waiting
  /-- The block stopped the machine. A statement says that this never happens. -/
  | blockStopped
deriving DecidableEq, Repr

/-- How many of the Transport's answers are `Timeout` or `Closed` (42_client_environment.md R126). -/
def gaps : List Received → Nat
  | [] => 0
  | .byte _ :: rest => gaps rest
  | .timeout :: rest => gaps rest + 1
  | .closed :: rest => gaps rest + 1

/-- How a call has gone: its result, the frames it handed to `send` in order, what it left in the Transport
for the next call (42_client_environment.md R132), and its parser as it stands. -/
structure Exchange where
  result : CallResult
  sent : List (List Byte)
  net : Transport
  parser : State
deriving DecidableEq, Repr

/-- What becomes of one received byte: pushed, and the frame captured when it completes one
(42_client_environment.md R125 step 3). Both ends carry the parser after it. -/
inductive Feed where
  | more (p : State)
  | frame (raw : List Byte) (p : State)
  | stopped
deriving DecidableEq, Repr

/-- `P.PUSH(b)`, and `P.TAKE_RAW` at once when the frame is ready (42_client_environment.md R125). -/
def feedByte (b : Byte) (p : State) : Feed :=
  match perform (.push b) p with
  | none => .stopped
  | some (r, q) =>
    if r.frameReady then
      match perform .takeRaw q with
      | some ({ data := .bytes raw, .. }, u) => .frame raw u
      | _ => .stopped
    else .more q

/-- The second decoding, through an independent parser (42_client_environment.md R127). -/
def replyOf (raw : List Byte) : CallResult :=
  match pushN raw State.reset with
  | none => .blockStopped
  | some (_, q) =>
    match perform .take q with
    | some ({ data := .fields f, .. }, _) =>
      .reply { command := f.command, payload := f.payload, raw := raw }
    | _ => .blockStopped

/-- The receive loop of `transact` (42_client_environment.md R125, R126): `Timeout` and `Closed` alike use up
a retry, reset the parser and send the frame again. At the completing byte the loop ends, and what was received
after it stays in the Transport (R132). -/
def transactLoop (frame : List Byte) :
    List Received → List SendAnswer → Nat → State → List (List Byte) → Exchange
  | [], sends, _, p, sent => ⟨.waiting, sent, ⟨[], sends⟩, p⟩
  | .byte b :: rest, sends, retries, p, sent =>
    match feedByte b p with
    | .more q => transactLoop frame rest sends retries q sent
    | .frame raw q => ⟨replyOf raw, sent, ⟨rest, sends⟩, q⟩
    | .stopped => ⟨.blockStopped, sent, ⟨rest, sends⟩, p⟩
  | .timeout :: rest, sends, retries, p, sent
  | .closed :: rest, sends, retries, p, sent =>
    match retries with
    | 0 => ⟨.timeout, sent, ⟨rest, sends⟩, p⟩
    | k + 1 =>
      match perform .reset p with
      | none => ⟨.blockStopped, sent, ⟨rest, sends⟩, p⟩
      | some (_, q) =>
        match sends with
        | [] => ⟨.waiting, sent ++ [frame], ⟨rest, []⟩, q⟩
        | .networkError :: more => ⟨.networkError, sent ++ [frame], ⟨rest, more⟩, q⟩
        | .sent :: more => transactLoop frame rest more k q (sent ++ [frame])

/-- `transact(frame_bytes, retries)` on the given parser (42_client_environment.md R125). -/
def transactOn (p : State) (frame : List Byte) (retries : Nat) (net : Transport) : Exchange :=
  match net.sends with
  | [] => ⟨.waiting, [frame], net, p⟩
  | .networkError :: more => ⟨.networkError, [frame], ⟨net.received, more⟩, p⟩
  | .sent :: more => transactLoop frame net.received more retries p [frame]

/-- `transact(frame_bytes, retries)` with a parser of its own (42_client_environment.md R125 step 2). -/
def transact (frame : List Byte) (retries : Nat) (net : Transport) : Exchange :=
  transactOn State.reset frame retries net

/-- The receive loop of `receive_only` (42_client_environment.md R131): the first `Timeout` or `Closed` fails
the call. It never sends. -/
def receiveLoop : List Received → List SendAnswer → State → Exchange
  | [], sends, p => ⟨.waiting, [], ⟨[], sends⟩, p⟩
  | .byte b :: rest, sends, p =>
    match feedByte b p with
    | .more q => receiveLoop rest sends q
    | .frame raw q => ⟨replyOf raw, [], ⟨rest, sends⟩, q⟩
    | .stopped => ⟨.blockStopped, [], ⟨rest, sends⟩, p⟩
  | .timeout :: rest, sends, p => ⟨.timeout, [], ⟨rest, sends⟩, p⟩
  | .closed :: rest, sends, p => ⟨.timeout, [], ⟨rest, sends⟩, p⟩

/-- `receive_only(timeout)` on the given parser (42_client_environment.md R131). -/
def receiveOnlyOn (p : State) (net : Transport) : Exchange := receiveLoop net.received net.sends p

/-- `receive_only(timeout)` with a parser of its own (42_client_environment.md R131). -/
def receiveOnly (net : Transport) : Exchange := receiveOnlyOn State.reset net

/-! ## Calls on one connection (42_client_environment.md R132) -/

/-- When the client creates a parser: the parameter of 93_implementation_defined.md U1. -/
inductive ParserDesign where
  /-- For each call, private to it and discarded after it. -/
  | perCall
  /-- Once for the connection, kept from call to call. -/
  | longLived
deriving DecidableEq, Repr

/-- One call of the client's interface (42_client_environment.md R123). -/
inductive Call where
  | transact (frame : List Byte) (retries : Nat)
  | receiveOnly
deriving DecidableEq, Repr

/-- A call on the given parser. -/
def Call.run (call : Call) (p : State) (net : Transport) : Exchange :=
  match call with
  | .transact frame retries => transactOn p frame retries net
  | .receiveOnly => receiveOnlyOn p net

/-- A client with its connection. `parser` is the connection-wide parser, which the per-call design does not
use. -/
structure Client where
  design : ParserDesign
  parser : State
  net : Transport
deriving DecidableEq, Repr

/-- The parser the next call uses (42_client_environment.md R132). -/
def Client.callParser (c : Client) : State :=
  match c.design with
  | .perCall => State.reset
  | .longLived => c.parser

/-- The connection-wide parser after a call: the caller issues `RESET` when the call gave up on a frame
(70_reset_and_hazards.md R168, 93_implementation_defined.md U1; log 18). -/
def Exchange.keptParser (x : Exchange) : State :=
  match x.result with
  | .timeout =>
    match perform .reset x.parser with
    | some (_, q) => q
    | none => x.parser
  | .reply _ => x.parser
  | .networkError => x.parser
  | .waiting => x.parser
  | .blockStopped => x.parser

/-- The client after a call: what the call left in the Transport is there for the next one, and a private
parser is discarded (42_client_environment.md R132). -/
def Client.after (c : Client) (x : Exchange) : Client :=
  match c.design with
  | .perCall => { c with net := x.net }
  | .longLived => { c with net := x.net, parser := x.keptParser }

/-- A call has returned to its caller. -/
def CallResult.returned : CallResult → Bool
  | .reply _ => true
  | .timeout => true
  | .networkError => true
  | .waiting => false
  | .blockStopped => false

/-- Calls one after the other on one connection; a call that has not returned is the last. -/
def runCalls : List Call → Client → List Exchange × Client
  | [], c => ([], c)
  | call :: calls, c =>
    let x := call.run c.callParser c.net
    if x.result.returned then
      let (xs, d) := runCalls calls (c.after x)
      (x :: xs, d)
    else ([x], c.after x)

/-- A connection-wide parser fed a continuous, externally buffered stream (42_client_environment.md R132):
every frame extracted as it completes, in order. -/
def streamFrames : List Byte → State → Option (List (List Byte) × State)
  | [], p => some ([], p)
  | b :: bs, p =>
    match feedByte b p with
    | .more q => streamFrames bs q
    | .frame raw q =>
      match streamFrames bs q with
      | some (frames, u) => some (raw :: frames, u)
      | none => none
    | .stopped => none

end Sys2Proof.Machine
end

