-- ==== Sys2Proof/Machine/Table.lean ====
section
/-! DEFINITION. The parser's state machine written a second time, as the one table of 41_stream_parser.md
R110, over a buffer that is a plain list of bytes. The meanings do not use it; a statement compares the two. -/

namespace Sys2Proof.Machine

/-- The triple of one parser instance (10_state.md R24), the buffer as a sequence of bytes (R22). -/
structure ParserTriple where
  st : ParserState
  need : Nat
  buf : List Byte
deriving DecidableEq, Repr

/-- The triple that a machine state holds. -/
def State.triple (s : State) : ParserTriple := { st := s.st, need := s.need, buf := Memory.bytes s.buf }

/-- The triple after reset (10_state.md R32). -/
def ParserTriple.reset : ParserTriple := { st := .seekingStart, need := 0, buf := [] }

/-- The triple after an `STX` has started a frame (41_stream_parser.md R92). -/
def ParserTriple.started : ParserTriple := { st := .readingHeader, need := 3, buf := [0x02] }

/-- What a row of the table gives: the triple after, `frame_ready` and `err`. -/
structure TableRow where
  after : ParserTriple
  frameReady : Bool
  err : ErrCode
deriving DecidableEq, Repr

/-- The rows of the table for `PUSH b`. No row is given where the table has none (`need = 0` while reading). -/
def pushRow (p : CompletePush) (b : Byte) (v : ParserTriple) : Option TableRow :=
  match v.st with
  | .seekingStart =>
    if b = 0x02 then some ⟨ParserTriple.started, false, .ok⟩ else some ⟨v, false, .ok⟩
  | .readingHeader =>
    if 1 < v.need then some ⟨⟨.readingHeader, v.need - 1, v.buf ++ [b]⟩, false, .ok⟩
    else if v.need = 1 then some ⟨⟨.readingPayloadAndFooter, b.toNat + 3, v.buf ++ [b]⟩, false, .ok⟩
    else none
  | .readingPayloadAndFooter =>
    if 1 < v.need then some ⟨⟨.readingPayloadAndFooter, v.need - 1, v.buf ++ [b]⟩, false, .ok⟩
    else if v.need = 1 then
      if tailOk (v.buf ++ [b]) then some ⟨⟨.complete, 0, v.buf ++ [b]⟩, true, .ok⟩
      else some ⟨ParserTriple.reset, false, .ok⟩
    else none
  | .complete =>
    if p = .reprocess ∧ b = 0x02 then some ⟨ParserTriple.started, false, .ok⟩
    else some ⟨ParserTriple.reset, false, .ok⟩

/-- The rows of the table for the two extractions. -/
def extractRow (v : ParserTriple) : TableRow :=
  if v.st = .complete then ⟨ParserTriple.reset, false, .ok⟩ else ⟨v, false, .notReady⟩

/-- The whole table of 41_stream_parser.md R110. `ENCODE` is absent there because it never touches `st`. -/
def tableRow (p : CompletePush) (i : Instr) (v : ParserTriple) : Option TableRow :=
  match i with
  | .reset => some ⟨ParserTriple.reset, false, .ok⟩
  | .push b => pushRow p b v
  | .take => some (extractRow v)
  | .takeRaw => some (extractRow v)
  | .encode _ _ _ _ => none

end Sys2Proof.Machine
end

