-- ==== Sys2Proof/Machine/Views.lean ====
section
/-! DEFINITION. The read-only views of 10_state.md R27. Outside `Complete` every view but `complete` has no
value. -/

namespace Sys2Proof.Machine

/-- `complete`: the level form of `frame_ready`. -/
def viewComplete (s : State) : Bool := s.st == .complete

/-- A value that exists in `Complete` only. -/
def whenComplete {α : Type} (s : State) (v : Option α) : Option α := if viewComplete s then v else none

/-- `v_raw = buf`. -/
def viewRaw (s : State) : Option (List Byte) := whenComplete s (some (Memory.bytes s.buf))

/-- `v_addr = buf[1]`. -/
def viewAddr (s : State) : Option Byte := whenComplete s (Memory.read s.buf 1)

/-- `v_cmd = buf[2]`. -/
def viewCmd (s : State) : Option Byte := whenComplete s (Memory.read s.buf 2)

/-- `v_len = buf[3]`. -/
def viewLen (s : State) : Option Byte := whenComplete s (Memory.read s.buf 3)

/-- `v_payload = buf[4 .. 4 + buf[3])`. -/
def viewPayload (s : State) : Option (List Byte) :=
  whenComplete s
    ((Memory.read s.buf 3).map fun len => ((Memory.bytes s.buf).drop Config.HEADER_LEN).take len.toNat)

end Sys2Proof.Machine
end

