-- ==== Sys2Proof/Safety.lean ====
section
/-! DEFINITION. What counts as a good state and a good run: the invariant of 10_state.md R30, the caller's
duties (70_reset_and_hazards.md R164, R165), and the unmarked run. -/

namespace Sys2Proof.Machine

/-- The value of the buffered length byte, 0 where none is buffered. -/
def lenByte (m : Memory) : Nat := ((Memory.read m 3).getD 0).toNat

/-- The invariant of 10_state.md R30: for each mode, what `blen`, `need` and the buffer are; and the buffer's
canonical form. -/
abbrev State.Inv (s : State) : Prop :=
  Memory.wf s.buf
    ∧ (s.st = .seekingStart → s.buf = [] ∧ s.need = 0)
    ∧ (s.st = .readingHeader →
        1 ≤ Memory.blen s.buf ∧ Memory.blen s.buf ≤ 3 ∧ s.need = 4 - Memory.blen s.buf
          ∧ Memory.read s.buf 0 = some 0x02)
    ∧ (s.st = .readingPayloadAndFooter →
        4 ≤ Memory.blen s.buf ∧ Memory.blen s.buf ≤ 6 + lenByte s.buf
          ∧ s.need = 7 + lenByte s.buf - Memory.blen s.buf ∧ Memory.read s.buf 0 = some 0x02)
    ∧ (s.st = .complete → s.need = 0 ∧ validFrame (Memory.bytes s.buf) = true)

/-- The parser is in its reset state (10_state.md R32), whatever the interface fields hold. -/
abbrev State.parserReset (s : State) : Prop := s.st = .seekingStart ∧ s.need = 0 ∧ s.buf = []

/-- Two states hold the same parser (10_state.md R24). -/
abbrev State.sameParser (s t : State) : Prop := t.st = s.st ∧ t.need = s.need ∧ t.buf = s.buf

/-- The operations issued and not yet performed have operand ports that agree with 40_frame_builder.md R80. -/
abbrev State.queueWellFormed (s : State) : Prop := ∀ r ∈ s.queue, r.port.wellFormed = true

/-- The caller's duty for one operation: extract before the next push (70_reset_and_hazards.md R164), extract
a completed frame only (R165), hand over at most 255 payload bytes (42_client_environment.md R135). -/
def callerDuty (i : Instr) (s : State) : Bool :=
  match i with
  | .reset => true
  | .push _ => !viewComplete s
  | .take => viewComplete s
  | .takeRaw => viewComplete s
  | .encode _ _ plen _ => decide (plen ≤ Config.MAX_PAYLOAD)

/-- A run is unmarked while no operation has ended in `NotReady` or `IllegalOp` (60_exceptions.md R142, R143);
a marked state is never a final state of a good run. -/
def State.unmarked (s : State) : Bool := !s.faultMark

/-- The result of the latest operation ended with this error code. -/
def State.endedWith (s : State) (e : ErrCode) : Prop := ∃ r, s.result = some r ∧ r.err = e

end Sys2Proof.Machine
end

