-- ==== Sys2Proof/Certificates/Slice0/Obligations.lean ====
section
/-! DEFINITION. The statements for the provers. A docstring names the rule of spec/ that a statement
formalises; where a clause rests on a decision of the spec (D<n> of 92_eei_decisions.md), on something the
spec marks as derived, or on a choice of the model (log <n>), the docstring says so. -/

open Sys2Proof Sys2Proof.Machine

/-! ## Reset -/

/-- 41_stream_parser.md R90: operation code 000 with any `din` is `RESET`, and `RESET` clears the parser from
every state, reports `OK` and `frame_ready = false` without data, and changes nothing else. -/
def Obligations.ResetClearsParserFromEveryState : Prop :=
  (∀ r : Request, opField r.cw = 0 → decode r = .ok .reset)
    ∧ ∀ s : State, exec .reset s = .next
        { s with st := .seekingStart, need := 0, buf := [], result := some ⟨.ok, false, .none⟩ }

/-- 10_state.md R32 with decision D8: the machine after power-on seeks with nothing buffered, and no view but
`complete` has a value. That nothing is issued, no result exists and the run is unmarked is the model's own
choice (logs 2, 4, 5). -/
def Obligations.ResetStateSeeksWithEmptyBuffer : Prop :=
  State.reset.parserReset
    ∧ viewComplete State.reset = false ∧ viewRaw State.reset = none ∧ viewAddr State.reset = none
    ∧ viewCmd State.reset = none ∧ viewLen State.reset = none ∧ viewPayload State.reset = none
    ∧ State.reset.queue = [] ∧ State.reset.result = none ∧ State.reset.faultMark = false

/-! ## Command words -/

/-- Decoding and encoding agree (30_encoding.md R67, R68; the command word is decision D2): every operation,
with every operand, decodes from the word to which it assembles; and whatever a word decodes to assembles to
a word with the same operation code, the same word for `PUSH`, and the same operand port for `ENCODE`. -/
def Obligations.DecodeEncodeAgree : Prop :=
  (∀ i : Instr, decode (encode i) = .ok i)
    ∧ ∀ (r : Request) (i : Instr), decode r = .ok i →
        opField (encode i).cw = opField r.cw
          ∧ (opField r.cw = 1 → (encode i).cw = r.cw)
          ∧ (opField r.cw = 4 → (encode i).port = r.port)

/-- The decoder is the match and mask table of 30_encoding.md R68 (codes by decision D2): a row selects a
command word exactly when the word decodes to the operation of that row. -/
def Obligations.DecodeSelectsTableRow : Prop :=
  ∀ row ∈ opTable, ∀ r : Request,
    row.selects r.cw = true ↔ ∃ i, decode r = .ok i ∧ i.mnemonic = row.mnemonic

/-- `din` is ignored by every operation but `PUSH` (30_encoding.md R67, decision D28). -/
def Obligations.DinIgnoredOutsidePush : Prop :=
  ∀ (op : OpCode) (d e : Byte) (port : OperandPort), op ≠ 1 →
    decode ⟨commandWord op d, port⟩ = decode ⟨commandWord op e, port⟩

/-- Words written out from 30_encoding.md R68 and 95_test_vectors.md (X4, X5, P1) decode to the operations
they stand for, and the three reserved codes (X1 to X3) to none. -/
def Obligations.SpecCommandWordsDecode : Prop :=
  decodeTableWord 16 0b00010100101 = some .reset
    ∧ decodeTableWord 16 0b00100000010 = some (.push 0x02)
    ∧ decodeTableWord 16 0b00111100101 = some (.push 0xE5)
    ∧ decodeTableWord 16 0b01011111111 = some .take
    ∧ decodeTableWord 16 0b01100000000 = some .takeRaw
    ∧ decode ⟨0b10000000000, ⟨0x00, 0x4F, 1, [0x90]⟩⟩ = .ok (.encode 0x00 0x4F 1 [0x90])
    ∧ decodeTableWord 16 0b10100000000 = none
    ∧ decodeTableWord 16 0b11011111111 = none
    ∧ decodeTableWord 16 0b11100000000 = none

/-- 30_encoding.md R69 and 60_exceptions.md R143 (decision D3): exactly the operation codes 5, 6 and 7 are
rejected, and performing such a word ends in `IllegalOp` with the parser unchanged. The set sticky mark is the
model's own (log 5). -/
def Obligations.ReservedOperationCodeEndsInIllegalOp : Prop :=
  (∀ r : Request, (∃ e, decode r = .error e) ↔ 5 ≤ (opField r.cw).toNat)
    ∧ ∀ (s : State) (r : Request) (rest : List Request),
        s.queue = r :: rest → 5 ≤ (opField r.cw).toNat →
          step s = .next { s with queue := rest, result := some ⟨.illegalOp, false, .none⟩,
                                  faultMark := true }

/-- A step performs the oldest operation issued and takes it from the queue; with nothing issued it changes
nothing (00_scope.md R11, 20_memory.md R50; the queue and the idle step are the model's own, logs 2 and 3). -/
def Obligations.StepRunsDecodedOperation : Prop :=
  (∀ (s : State) (r : Request) (rest : List Request) (i : Instr),
      s.queue = r :: rest → decode r = .ok i → step s = exec i { s with queue := rest })
    ∧ ∀ s : State, s.queue = [] → step s = .next s

/-! ## ENCODE -/

/-- 40_frame_builder.md R80: operation code 100 is `ENCODE` with the operands of the port. With at most 255
payload bytes it returns exactly `STX, ADDR, CMD, LEN`, the payload, `ETX`, `SUM`, `CR`, where `SUM` is the sum
of the bytes from `STX` through `ETX` modulo 256; with more it raises `PayloadTooLarge`; either way it writes
no state but its result. -/
def Obligations.EncodeBuildsWireFrame : Prop :=
  (∀ r : Request, opField r.cw = 4 →
      decode r = .ok (.encode r.port.addr r.port.cmd r.port.plen r.port.pdata))
    ∧ (∀ (addr cmd : Byte) (pdata : List Byte) (s : State), pdata.length ≤ 255 →
        exec (.encode addr cmd pdata.length pdata) s = .next
          { s with result := some ⟨.ok, false, .bytes
              ([0x02, addr, cmd, BitVec.ofNat 8 pdata.length] ++ pdata
                ++ [0x03, BitVec.ofNat 8 (2 + addr.toNat + cmd.toNat + pdata.length
                      + (pdata.map BitVec.toNat).sum + 3), 0x0D])⟩ })
    ∧ ∀ (addr cmd : Byte) (plen : Nat) (pdata : List Byte) (s : State), 255 < plen →
        exec (.encode addr cmd plen pdata) s = .next
          { s with result := some ⟨.payloadTooLarge, false, .none⟩ }

/-- 40_frame_builder.md R81: the checksum byte of a result is `sum8` of the bytes placed before it, offsets 0
to `4 + plen` of the result itself. -/
def Obligations.EncodeChecksumCoversEmittedBytes : Prop :=
  ∀ (addr cmd : Byte) (pdata : List Byte) (s : State), pdata.length ≤ 255 →
    ∃ t f, exec (.encode addr cmd pdata.length pdata) s = .next t
      ∧ t.result = some ⟨.ok, false, .bytes f⟩
      ∧ f[5 + pdata.length]? = some (sum8 (f.take (5 + pdata.length)))

/-- 60_exceptions.md R141: `PayloadTooLarge` is raised by `ENCODE` and by nothing else, exactly when
`plen > 255`, and then no result byte exists. A rejected command word does not raise it either. -/
def Obligations.PayloadTooLargeExactlyForLongPayload : Prop :=
  (∀ (a c : Byte) (n : Nat) (p : List Byte) (s : State), 255 < n →
      ∃ t, exec (.encode a c n p) s = .next t ∧ t.endedWith .payloadTooLarge)
    ∧ (∀ (i : Instr) (s t : State), exec i s = .next t →
        (t.endedWith .payloadTooLarge ↔ ∃ a c n p, i = .encode a c n p ∧ 255 < n)
          ∧ (t.endedWith .payloadTooLarge → t.result = some ⟨.payloadTooLarge, false, .none⟩))
    ∧ ∀ (s t : State) (r : Request) (rest : List Request), s.queue = r :: rest →
        (∀ i, decode r ≠ .ok i) → step s = .next t → ¬ t.endedWith .payloadTooLarge

/-- 40_frame_builder.md R82, which the spec marks as derived: every frame built is a valid frame of length
`7 + plen` from which `decode_fields` gives the operands back. -/
def Obligations.EncodeResultIsValidFrame : Prop :=
  ∀ (addr cmd : Byte) (pdata : List Byte), pdata.length ≤ 255 →
    validFrame (buildFrame addr cmd pdata.length pdata) = true
      ∧ (buildFrame addr cmd pdata.length pdata).length = 7 + pdata.length
      ∧ decodeFields (buildFrame addr cmd pdata.length pdata) = some ⟨addr, cmd, pdata⟩

/-- 40_frame_builder.md R84, which the spec marks as derived: an `ENCODE` issued before or after another
operation changes neither that operation's effect and result nor its own result. -/
def Obligations.EncodeCommutesWithEveryOperation : Prop :=
  ∀ (addr cmd : Byte) (plen : Nat) (pdata : List Byte) (i : Instr) (s t u : State),
    exec (.encode addr cmd plen pdata) s = .next t → exec i s = .next u →
      ∃ v w, exec i t = .next v ∧ exec (.encode addr cmd plen pdata) u = .next w
        ∧ v = u ∧ w = { u with result := t.result }

/-- An operand port that contradicts 40_frame_builder.md R80 (the model's own choice, log 9): `ENCODE` takes
the first `plen` bytes when the port holds more, and stops when it holds fewer. -/
def Obligations.EncodeOnContradictoryPort : Prop :=
  (∀ (addr cmd : Byte) (plen : Nat) (pdata : List Byte) (s : State),
      plen ≤ 255 → plen ≤ pdata.length →
        exec (.encode addr cmd plen pdata) s = exec (.encode addr cmd plen (pdata.take plen)) s)
    ∧ ∀ (addr cmd : Byte) (plen : Nat) (pdata : List Byte) (s : State),
        plen ≤ 255 → pdata.length < plen →
          exec (.encode addr cmd plen pdata) s = .fault (.payloadAddress pdata.length)

/-! ## The checksum -/

/-- 30_encoding.md R65: `sum8` is the sum modulo 256, carries discarded; it is 0 on the empty sequence,
independent of the order, computable byte by byte; and the `SUM` of a built frame is `sum8` of all its bytes from
`STX` through `ETX`, `SUM` and `CR` excluded. -/
def Obligations.Sum8AddsModulo256 : Prop :=
  (∀ s : List Byte, (sum8 s).toNat = (s.map BitVec.toNat).sum % 256)
    ∧ sum8 [] = 0
    ∧ (∀ s t : List Byte, s.Perm t → sum8 s = sum8 t)
    ∧ (∀ s : List Byte, sum8 s = s.foldl (fun acc b => BitVec.ofNat 8 ((acc.toNat + b.toNat) % 256)) 0)
    ∧ ∀ (addr cmd : Byte) (data : List Byte), data.length ≤ 255 →
        (buildFrame addr cmd data.length data)[5 + data.length]?
          = some (sum8 ([0x02, addr, cmd, BitVec.ofNat 8 data.length] ++ data ++ [0x03]))

/-- 70_reset_and_hazards.md R171, which the spec marks as derived: exchanging `ADDR` and `CMD` of a valid
frame, or any reordering of its payload, gives another valid frame. -/
def Obligations.ReorderedBytesKeepFrameValid : Prop :=
  (∀ (a c : Byte) (rest : List Byte),
      validFrame (0x02 :: a :: c :: rest) = true → validFrame (0x02 :: c :: a :: rest) = true)
    ∧ ∀ (a c l x : Byte) (p q : List Byte), p.Perm q →
        validFrame ([0x02, a, c, l] ++ p ++ [0x03, x, 0x0D]) = true →
          validFrame ([0x02, a, c, l] ++ q ++ [0x03, x, 0x0D]) = true

/-! ## PUSH -/

/-- 41_stream_parser.md R92: in `SeekingStart` an `STX` starts a frame and any other byte is discarded with
no trace; both report `frame_ready = false`. -/
def Obligations.PushWhileSeeking : Prop :=
  ∀ (b : Byte) (s : State), s.st = .seekingStart →
    exec (.push b) s = .next
      (if b = 0x02 then
        { s with st := .readingHeader, need := 3, buf := [(0, 0x02)],
                 result := some ⟨.ok, false, .none⟩ }
      else { s with result := some ⟨.ok, false, .none⟩ })

/-- 41_stream_parser.md R93: in `ReadingHeader` the byte is accumulated whatever its value; the one that
completes the header is `LEN` itself, stands at address 3, and sets `need` to `LEN + 3`. -/
def Obligations.PushInHeader : Prop :=
  ∀ (b : Byte) (s : State), s.Inv → s.st = .readingHeader →
    (1 < s.need → exec (.push b) s = .next
        { s with buf := s.buf ++ [(Memory.blen s.buf, b)], need := s.need - 1,
                 result := some ⟨.ok, false, .none⟩ })
      ∧ (s.need = 1 → exec (.push b) s = .next
          { s with buf := s.buf ++ [(Memory.blen s.buf, b)], need := b.toNat + 3,
                   st := .readingPayloadAndFooter, result := some ⟨.ok, false, .none⟩ }
          ∧ Memory.read (s.buf ++ [(Memory.blen s.buf, b)]) 3 = some b)

/-- 41_stream_parser.md R94: in `ReadingPayloadAndFooter`, before the last byte, the byte is accumulated
whatever its value and `need` stays at least 1. -/
def Obligations.PushAccumulatesPayload : Prop :=
  ∀ (b : Byte) (s : State), s.Inv → s.st = .readingPayloadAndFooter → 1 < s.need →
    exec (.push b) s = .next
        { s with buf := s.buf ++ [(Memory.blen s.buf, b)], need := s.need - 1,
                 result := some ⟨.ok, false, .none⟩ }
      ∧ 1 ≤ s.need - 1

/-- 41_stream_parser.md R95: the completing push of a valid frame keeps the frame, reports
`frame_ready = true` and enters `Complete`; the buffer is then a valid frame of `7 + buf[3]` bytes and the
views have values. The frame stays buffered until a `TAKE`, `TAKE_RAW`, `RESET` or `PUSH`: a step that performs
any other command word (operation codes 4 to 7) keeps it. -/
def Obligations.PushCompletesValidFrame : Prop :=
  ∀ (b : Byte) (s : State), s.Inv → s.st = .readingPayloadAndFooter → s.need = 1 →
    tailOk (Memory.bytes s.buf ++ [b]) = true →
      ∃ t, exec (.push b) s = .next t
        ∧ t = { s with buf := s.buf ++ [(Memory.blen s.buf, b)], need := 0, st := .complete,
                       result := some ⟨.ok, true, .none⟩ }
        ∧ validFrame (Memory.bytes t.buf) = true
        ∧ (∃ len, Memory.read t.buf 3 = some len ∧ Memory.blen t.buf = 7 + len.toNat)
        ∧ viewRaw t = some (Memory.bytes t.buf)
        ∧ (viewAddr t).isSome ∧ (viewCmd t).isSome ∧ (viewLen t).isSome ∧ (viewPayload t).isSome
        ∧ ∀ (r : Request) (rest : List Request) (u : State), 4 ≤ (opField r.cw).toNat →
            step { t with queue := r :: rest } = .next u → t.sameParser u

/-- 41_stream_parser.md R96: the completing push of a malformed frame drops the buffer and the byte in
silence: the parser is in its reset state, `frame_ready` is false and no error is raised. -/
def Obligations.PushResynchronisesOnMalformedFrame : Prop :=
  ∀ (b : Byte) (s : State), s.Inv → s.st = .readingPayloadAndFooter → s.need = 1 →
    tailOk (Memory.bytes s.buf ++ [b]) = false →
      exec (.push b) s = .next
        { s with st := .seekingStart, need := 0, buf := [], result := some ⟨.ok, false, .none⟩ }

/-- 41_stream_parser.md R97: a push in `Complete` loses the frame without an error. What becomes of the byte
is the open parameter of decision D9 (log 1), so the statement covers both settings. -/
def Obligations.PushInCompleteLosesFrame : Prop :=
  ∀ (b : Byte) (s : State), s.st = .complete →
    exec (.push b) s = .next
      (if Config.completePush = .reprocess ∧ b = 0x02 then
        { s with st := .readingHeader, need := 3, buf := [(0, 0x02)],
                 result := some ⟨.ok, false, .none⟩ }
      else
        { s with st := .seekingStart, need := 0, buf := [],
                 result := some ⟨.ok, false, .none⟩ })

/-- 41_stream_parser.md R91 with the invariant that the spec marks as derived (10_state.md R30): in every
state with the invariant and for every byte, `PUSH` completes, never raises an error and returns no data. That
it touches neither the issued operations nor the mark is about the model's own fields (logs 2 and 5). -/
def Obligations.PushNeverEndsInError : Prop :=
  ∀ (b : Byte) (s : State), s.Inv →
    ∃ t ready, exec (.push b) s = .next t ∧ t.result = some ⟨.ok, ready, .none⟩
      ∧ t.queue = s.queue ∧ t.faultMark = s.faultMark

/-- 10_state.md R26: `frame_ready` is true for the completing push whose validation passes and false for
every other push and every other operation. -/
def Obligations.FrameReadyExactlyOnCompletingPush : Prop :=
  ∀ (i : Instr) (s t : State), s.Inv → exec i s = .next t →
    ∃ r, t.result = some r
      ∧ (r.frameReady = true ↔
          ∃ b, i = .push b ∧ s.st = .readingPayloadAndFooter ∧ s.need = 1
            ∧ tailOk (Memory.bytes s.buf ++ [b]) = true)

/-- 41_stream_parser.md R100, the clause that the spec marks as derived: at the completing push the tail check
says exactly that the buffered bytes are a valid frame. -/
def Obligations.TailCheckIsFrameValidity : Prop :=
  ∀ (b : Byte) (s : State), s.Inv → s.st = .readingPayloadAndFooter → s.need = 1 →
    tailOk (Memory.bytes s.buf ++ [b]) = validFrame (Memory.bytes s.buf ++ [b])

/-- The bytes of memory a push changes (41_stream_parser.md R111, 10_state.md R22), read one by one: the
address stored to is `Memory.appendAddress` of the buffer while a frame is read, every other address reads as
before; a frame start stores at address 0 of an empty buffer; a dropped frame leaves no byte. In `Complete` the
open parameter of decision D9 (log 1) decides between the last two. -/
def Obligations.PushMemoryFrame : Prop :=
  ∀ (b : Byte) (s t : State), s.Inv → exec (.push b) s = .next t →
    ((s.st = .seekingStart ∧ b ≠ 0x02) → ∀ a, Memory.read t.buf a = Memory.read s.buf a)
      ∧ ((s.st = .seekingStart ∧ b = 0x02) →
          Memory.read t.buf 0 = some b ∧ ∀ a, a ≠ 0 → Memory.read t.buf a = Memory.read s.buf a)
      ∧ ((s.st = .readingHeader ∨ s.st = .readingPayloadAndFooter) → t.st ≠ .seekingStart →
          Memory.read t.buf (Memory.appendAddress s.buf) = some b
            ∧ ∀ a, a ≠ Memory.appendAddress s.buf → Memory.read t.buf a = Memory.read s.buf a)
      ∧ (s.st = .readingPayloadAndFooter → t.st = .seekingStart → ∀ a, Memory.read t.buf a = none)
      ∧ (s.st = .complete →
          if Config.completePush = .reprocess ∧ b = 0x02
          then Memory.read t.buf 0 = some b ∧ ∀ a, a ≠ 0 → Memory.read t.buf a = none
          else ∀ a, Memory.read t.buf a = none)

/-- The open parameter (decision D9) is unobservable outside `Complete`, so a caller that keeps the duty of
70_reset_and_hazards.md R164 cannot tell the two settings apart (41_stream_parser.md R97). -/
def Obligations.CompletePushParameterUnobservable : Prop :=
  (∀ (b : Byte) (s : State), exec (.push b) s = execPushWith Config.completePush b s)
    ∧ ∀ (p q : CompletePush) (b : Byte) (s : State), callerDuty (.push b) s = true →
        execPushWith p b s = execPushWith q b s

/-! ## TAKE and TAKE_RAW -/

/-- 41_stream_parser.md R98, the success case: in `Complete` `TAKE` returns `decode_fields` of the buffered
frame and leaves the parser in its reset state. That a buffer in `Complete` is a valid frame is the invariant
the spec marks as derived (10_state.md R30). -/
def Obligations.TakeReturnsFields : Prop :=
  ∀ s : State, s.Inv → s.st = .complete →
    ∃ f, decodeFields (Memory.bytes s.buf) = some f
      ∧ exec .take s = .next
          { s with st := .seekingStart, need := 0, buf := [],
                   result := some ⟨.ok, false, .fields f⟩ }

/-- 41_stream_parser.md R99, the success case: in `Complete` `TAKE_RAW` returns the buffered bytes, a valid
frame, and leaves the parser in its reset state. -/
def Obligations.TakeRawReturnsFrame : Prop :=
  ∀ s : State, s.Inv → s.st = .complete →
    exec .takeRaw s = .next
        { s with st := .seekingStart, need := 0, buf := [],
                 result := some ⟨.ok, false, .bytes (Memory.bytes s.buf)⟩ }
      ∧ validFrame (Memory.bytes s.buf) = true

/-- 60_exceptions.md R142 with decisions D10 and D23: without a completed frame both extractions trap with
`NotReady` and leave the parser, partial frame included, as it was. The set sticky mark is the model's own
(log 5). -/
def Obligations.ExtractionWithoutFrameRaisesNotReady : Prop :=
  ∀ s : State, s.st ≠ .complete →
    exec .take s = .next { s with result := some ⟨.notReady, false, .none⟩, faultMark := true }
      ∧ exec .takeRaw s = .next { s with result := some ⟨.notReady, false, .none⟩, faultMark := true }

/-- 60_exceptions.md R142 (for `TAKE_RAW` decision D23): `NotReady` is raised by the two extractions, exactly
when the parser is not in `Complete`. -/
def Obligations.NotReadyExactlyWithoutFrame : Prop :=
  ∀ (i : Instr) (s t : State), exec i s = .next t →
    (t.endedWith .notReady ↔ (i = .take ∨ i = .takeRaw) ∧ s.st ≠ .complete)

/-- 70_reset_and_hazards.md R165: only one of the two extractions can succeed per completed frame; the next
one ends in `NotReady`. That it leaves the parser as it was rests on decisions D10 and D23 of the spec (log 5). -/
def Obligations.SecondExtractionRaisesNotReady : Prop :=
  ∀ (i j : Instr) (s t : State), (i = .take ∨ i = .takeRaw) → (j = .take ∨ j = .takeRaw) →
    exec i s = .next t → t.endedWith .ok →
      ∃ u, exec j t = .next u ∧ u.endedWith .notReady ∧ t.sameParser u

/-- 41_stream_parser.md R103 (decision D12): a valid frame is determined by its three fields, so the raw form
is `ENCODE` of the structured form. -/
def Obligations.FieldsDetermineFrame : Prop :=
  ∀ f : List Byte, validFrame f = true →
    ∃ r, decodeFields f = some r ∧ r.payload.length ≤ 255
      ∧ ∀ s : State, exec (.encode r.address r.command r.payload.length r.payload) s = .next
          { s with result := some ⟨.ok, false, .bytes f⟩ }

/-- 10_state.md R27 (decision D11): in `Complete` the views show the frame and its fields; in every other
mode only `complete` has a value, and it is false. -/
def Obligations.ViewsShowCompletedFrame : Prop :=
  (∀ s : State, s.Inv → s.st = .complete →
      viewComplete s = true ∧ viewRaw s = some (Memory.bytes s.buf)
        ∧ ∃ f, decodeFields (Memory.bytes s.buf) = some f
            ∧ viewAddr s = some f.address ∧ viewCmd s = some f.command
            ∧ viewLen s = some (BitVec.ofNat 8 f.payload.length) ∧ viewPayload s = some f.payload)
    ∧ ∀ s : State, s.st ≠ .complete →
        viewComplete s = false ∧ viewRaw s = none ∧ viewAddr s = none ∧ viewCmd s = none
          ∧ viewLen s = none ∧ viewPayload s = none

/-! ## Errors and frames -/

/-- 60_exceptions.md R148 (decisions D10 and D18): an operation that ends in an error writes no parser state,
returns no data and reports `frame_ready = false`. That it leaves the issued operations as they are is about the
model's own queue (log 2). -/
def Obligations.FailedOperationWritesNothing : Prop :=
  ∀ (i : Instr) (s t : State) (e : ErrCode), exec i s = .next t → t.endedWith e → e ≠ .ok →
    s.sameParser t ∧ t.queue = s.queue ∧ t.result = some ⟨e, false, .none⟩

/-- The model's sticky mark (60_exceptions.md R149; the model's own choice, log 5): a step never clears it,
sets it exactly when the command word it performs ends in `NotReady` or `IllegalOp`, and leaves it alone when
nothing is issued; of the five decoded operations only `NotReady` sets it. -/
def Obligations.MarkIsSticky : Prop :=
  (∀ s t : State, s.queue ≠ [] → step s = .next t →
      (t.faultMark = true ↔
        s.faultMark = true ∨ t.endedWith .notReady ∨ t.endedWith .illegalOp))
    ∧ (∀ s t : State, s.queue = [] → step s = .next t → t.faultMark = s.faultMark)
    ∧ ∀ (i : Instr) (s t : State), exec i s = .next t →
        (t.faultMark = true ↔ s.faultMark = true ∨ t.endedWith .notReady)

/-- The bytes of memory that the other operations change, read one by one: `RESET` and a successful
extraction leave no byte (41_stream_parser.md R90, R98, R99), and `ENCODE` changes none (40_frame_builder.md R80,
R84). That a failed extraction changes none rests on decisions D10 and D23 of the spec (60_exceptions.md R142,
R148; 90_conflicts.md C9; log 5). -/
def Obligations.OtherOperationsMemoryFrame : Prop :=
  ∀ (i : Instr) (s t : State), (∀ b, i ≠ .push b) → exec i s = .next t →
    if i = .reset ∨ ((i = .take ∨ i = .takeRaw) ∧ s.st = .complete)
    then ∀ a, Memory.read t.buf a = none
    else ∀ a, Memory.read t.buf a = Memory.read s.buf a

/-! ## Invariants -/

/-- The power-on state meets the invariant of 10_state.md R30 (which the spec marks as derived). -/
def Obligations.ResetMeetsInvariant : Prop := State.reset.Inv

/-- Every step keeps the invariant of 10_state.md R30 (which the spec marks as derived): for each mode, what
`blen`, `need` and the buffer's content are. -/
def Obligations.StepKeepsInvariant : Prop :=
  ∀ s t : State, s.Inv → step s = .next t → t.Inv

/-- Every step keeps the buffer in its canonical form, addresses 0 to `blen - 1` and at most 262 of them
(20_memory.md R40), in every state, invariant or not. -/
def Obligations.StepKeepsBufferCanonical : Prop :=
  ∀ s t : State, Memory.wf s.buf → step s = .next t → Memory.wf t.buf

/-- No step from a state with the invariant stops the machine, as long as the operand ports agree with
40_frame_builder.md R80: every issued operation is performed. Derived from 10_state.md R30. -/
def Obligations.StepNeverStops : Prop :=
  ∀ s : State, s.Inv → s.queueWellFormed → ∃ t, step s = .next t ∧ t.queueWellFormed

/-- The consequences that 10_state.md R30 draws from its table. -/
def Obligations.InvariantBoundsCounters : Prop :=
  ∀ s : State, s.Inv →
    Memory.blen s.buf ≤ 262 ∧ s.need ≤ 258
      ∧ (s.need = 0 ↔ s.st = .seekingStart ∨ s.st = .complete)
      ∧ (s.st = .readingHeader → Memory.blen s.buf + s.need = 4)
      ∧ (s.st = .readingPayloadAndFooter ∨ s.st = .complete →
          ∃ len, Memory.read s.buf 3 = some len ∧ Memory.blen s.buf + s.need = 7 + len.toNat)

/-- The meanings follow the one table of 41_stream_parser.md R110 (its open rows by decision D9, its
`NotReady` rows by decisions D10 and D23; logs 1 and 5): from a state with the invariant, every parser operation
answers, and the triple, `frame_ready` and `err` after it are those of the table's row over a buffer that is a
plain sequence of bytes. -/
def Obligations.MeaningsFollowTransitionTable : Prop :=
  ∀ (i : Instr) (s : State), s.Inv → (∀ a c n p, i ≠ .encode a c n p) →
    ∃ t row r, exec i s = .next t ∧ tableRow Config.completePush i s.triple = some row
      ∧ t.triple = row.after ∧ t.result = some r
      ∧ r.frameReady = row.frameReady ∧ r.err = row.err

/-! ## Laws over sequences of operations -/

/-- 41_stream_parser.md R104, which the spec marks as derived: a valid frame after bytes without `STX` is
detected on its last byte and on no other, and `TAKE_RAW` returns it alone. -/
def Obligations.ValidFrameDetectedAfterGarbage : Prop :=
  ∀ (g f : List Byte) (s : State), 0x02 ∉ g → validFrame f = true → s.parserReset →
    ∃ t u, pushN (g ++ f) s = some (List.replicate (g.length + f.length - 1) false ++ [true], t)
      ∧ perform .takeRaw t = some (⟨.ok, false, .bytes f⟩, u) ∧ u.parserReset

/-- 41_stream_parser.md R105, which the spec marks as derived: a frame-shaped sequence with an intact `LEN`
and a failing tail check is dropped in silence and leaves the parser in its reset state. -/
def Obligations.MalformedFrameDroppedInSilence : Prop :=
  ∀ (bad : List Byte) (len : Byte) (s : State),
    bad[0]? = some 0x02 → bad[3]? = some len → bad.length = 7 + len.toNat → tailOk bad = false →
      s.parserReset →
        ∃ t, pushN bad s = some (List.replicate bad.length false, t) ∧ t.parserReset

/-- The round trip of 40_frame_builder.md R82, which the spec marks as derived, with `DECODE` of
30_encoding.md R74 (decision D30): decoding what was built gives the operands back. -/
def Obligations.WireRoundTrip : Prop :=
  ∀ (addr cmd : Byte) (pdata : List Byte) (s : State), pdata.length ≤ 255 →
    ∃ f t u, perform (.encode addr cmd pdata.length pdata) s = some (⟨.ok, false, .bytes f⟩, t)
      ∧ decodeFrame f t = some (⟨.ok, false, .fields ⟨addr, cmd, pdata⟩⟩, u) ∧ u.parserReset

/-- 41_stream_parser.md R106, which the spec marks as derived: while fewer than `need` bytes are pushed the
parser stays where it is and reports nothing. -/
def Obligations.ParserWaitsForNeededBytes : Prop :=
  ∀ (bs : List Byte) (s : State), s.Inv →
    (s.st = .readingHeader ∨ s.st = .readingPayloadAndFooter) → bs.length < s.need →
      ∃ t, pushN bs s = some (List.replicate bs.length false, t)
        ∧ t.st = s.st ∧ t.need = s.need - bs.length
        ∧ Memory.bytes t.buf = Memory.bytes s.buf ++ bs

/-- 20_memory.md R46 and 60_exceptions.md R149 (for `NotReady` decisions D10 and D23): what a parser does
depends only on its own triple and on the operations issued, the bytes pushed among them. Equal parsers give
equal results and equal parsers, whatever the latest result, the mark and the queue hold (the model's own fields,
logs 2, 4, 5); and after an operation that ended in an error, every further sequence goes as if it had not been
issued. -/
def Obligations.EqualParsersBehaveAlike : Prop :=
  (∀ (ops : List Instr) (s s' t : State) (rs : List Result), s.sameParser s' →
      performAll ops s = some (rs, t) →
        ∃ t', performAll ops s' = some (rs, t') ∧ t.sameParser t')
    ∧ (∀ (bs : List Byte) (s s' t : State) (flags : List Bool), s.sameParser s' →
        pushN bs s = some (flags, t) → ∃ t', pushN bs s' = some (flags, t') ∧ t.sameParser t')
    ∧ ∀ (i : Instr) (ops : List Instr) (s failed t : State) (e : ErrCode) (rs : List Result),
        exec i s = .next failed → failed.endedWith e → e ≠ .ok → performAll ops s = some (rs, t) →
          ∃ t', performAll ops failed = some (rs, t') ∧ t.sameParser t'

/-- A caller that keeps its duties (70_reset_and_hazards.md R164, R165; 42_client_environment.md R135) gets
`OK` from every operation. That it never marks the run is about the model's own sticky mark (60_exceptions.md
R149; log 5). -/
def Obligations.DutifulOperationSucceeds : Prop :=
  ∀ (i : Instr) (s : State), s.Inv → i.wellFormed = true → callerDuty i s = true →
    ∃ t, exec i s = .next t ∧ t.endedWith .ok ∧ t.faultMark = s.faultMark

/-! ## The environment's client -/

/-- 42_client_environment.md R128, which the spec marks as derived: whatever the Transport does, `transact`
hands the frame, and nothing else, to `send` exactly `1 + k` times, `k` being the `Timeout` and `Closed` answers
it met while retries remained. A reply leaves none met without a retry, and a call that fails with `Timeout` has
met exactly one more than the retries. That a `send` which fails or has not answered counts is the model's own
choice (log 14). -/
def Obligations.TransactSendsOncePerAttempt : Prop :=
  ∀ (frame : List Byte) (retries : Nat) (net : Transport),
    ∃ consumed, net.received = consumed ++ (transact frame retries net).net.received
      ∧ (transact frame retries net).sent = List.replicate (1 + min (gaps consumed) retries) frame
      ∧ (∀ r, (transact frame retries net).result = .reply r → gaps consumed ≤ retries)
      ∧ ((transact frame retries net).result = .timeout → gaps consumed = retries + 1)

/-- 42_client_environment.md R127: a reply's raw bytes are a valid frame and its command and payload are that
frame's fields. -/
def Obligations.ReplyMatchesRawBytes : Prop :=
  (∀ (frame : List Byte) (retries : Nat) (net : Transport) (r : Reply),
      (transact frame retries net).result = .reply r →
        validFrame r.raw = true ∧ ∃ a, decodeFields r.raw = some ⟨a, r.command, r.payload⟩)
    ∧ ∀ (net : Transport) (r : Reply), (receiveOnly net).result = .reply r →
        validFrame r.raw = true ∧ ∃ a, decodeFields r.raw = some ⟨a, r.command, r.payload⟩

/-- The client never drives the block into a stop (it extracts immediately after the completing push,
42_client_environment.md R125, and its second parse cannot fail, R127). -/
def Obligations.ClientNeverStopsTheBlock : Prop :=
  (∀ (frame : List Byte) (retries : Nat) (net : Transport),
      (transact frame retries net).result ≠ .blockStopped)
    ∧ ∀ net : Transport, (receiveOnly net).result ≠ .blockStopped

/-- 42_client_environment.md R132, which the spec marks as derived: a call on a parser in its reset state stops
receiving at the completing byte. The reply's raw bytes are the last bytes it received, everything after them
stays in the Transport for the next call, each frame it sent used up one answer to `send`, and nothing stays
behind in the parser. -/
def Obligations.ReplyLeavesRestInTransport : Prop :=
  ∀ (call : Call) (p : State) (net : Transport) (r : Reply), p.parserReset →
    (call.run p net).result = .reply r →
      (∃ before, net.received = before ++ r.raw.map .byte ++ (call.run p net).net.received)
        ∧ net.sends = List.replicate (call.run p net).sent.length .sent ++ (call.run p net).net.sends
        ∧ (call.run p net).parser.parserReset

/-- 42_client_environment.md R132 ("either design is acceptable"): with the caller's `RESET` after a call that
gave up on a frame (70_reset_and_hazards.md R168; log 18), one parser per call and one parser for the connection
give every sequence of calls the same results and the same sends, and leave the same answers in the Transport. -/
def Obligations.ParserDesignsAgree : Prop :=
  ∀ (calls : List Call) (p q : State) (net : Transport), p.parserReset →
    (runCalls calls ⟨.longLived, p, net⟩).1.map (fun x => (x.result, x.sent, x.net))
        = (runCalls calls ⟨.perCall, q, net⟩).1.map (fun x => (x.result, x.sent, x.net))
      ∧ (runCalls calls ⟨.longLived, p, net⟩).2.net = (runCalls calls ⟨.perCall, q, net⟩).2.net

/-- 42_client_environment.md R132, which the spec marks as derived, in either design: when frames follow one
another in the Transport, as many `receive_only` calls return them in order, one each, and the rest of the
stream is untouched. -/
def Obligations.ConsecutiveCallsReturnConsecutiveFrames : Prop :=
  ∀ (design : ParserDesign) (p : State) (frames : List (List Byte)) (rest : List Received)
    (sends : List SendAnswer), p.parserReset → (∀ f ∈ frames, validFrame f = true) →
      List.Forall₂
          (fun (x : Exchange) (f : List Byte) => ∃ a c d, decodeFields f = some ⟨a, c, d⟩
            ∧ x.result = .reply ⟨c, d, f⟩ ∧ x.sent = [])
          (runCalls (List.replicate frames.length .receiveOnly)
            ⟨design, p, ⟨frames.flatten.map .byte ++ rest, sends⟩⟩).1 frames
        ∧ (runCalls (List.replicate frames.length .receiveOnly)
            ⟨design, p, ⟨frames.flatten.map .byte ++ rest, sends⟩⟩).2.net = ⟨rest, sends⟩

/-- 42_client_environment.md R132 and 41_stream_parser.md R104 (marked as derived): a connection-wide parser fed
a continuous stream in which each valid frame follows bytes without `STX` gives exactly those frames, in order,
and is then in its reset state. -/
def Obligations.ContinuousStreamYieldsItsFrames : Prop :=
  ∀ (parts : List (List Byte × List Byte)) (p : State), p.parserReset →
    (∀ x ∈ parts, 0x02 ∉ x.1 ∧ validFrame x.2 = true) →
      ∃ q, streamFrames (parts.flatMap fun x => x.1 ++ x.2) p = some (parts.map Prod.snd, q)
        ∧ q.parserReset
end

