-- ==== Sys2Proof/Laws/Memory.lean ====
section
/-! SUPPORT. The buffer space: every operation keeps the canonical form, and a read gives what the sequence of
buffered bytes holds at that place. -/

namespace Sys2Proof.Machine

/-- Looking up an address among cells numbered from `k` on. -/
theorem lookup_of_addresses (m : Memory) :
    ∀ k, m.map Prod.fst = List.range' k m.length →
      ∀ a, List.lookup a m = if k ≤ a then (m.map Prod.snd)[a - k]? else none := by
  induction m with
  | nil => intro k _ a; simp
  | cons c m ih =>
    intro k h a
    obtain ⟨x, b⟩ := c
    simp only [List.map_cons, List.length_cons, List.range'_succ, List.cons.injEq] at h
    obtain ⟨rfl, h⟩ := h
    have hm := ih _ h a
    by_cases hax : a = x
    · subst hax; simp
    · have hne : (a == x) = false := by simpa using hax
      rw [List.lookup_cons, hne, hm]
      by_cases hle : x ≤ a
      · have h1 : x + 1 ≤ a := by omega
        have h2 : a - x = (a - (x + 1)) + 1 := by omega
        simp [h1, hle, h2]
      · have h1 : ¬ x + 1 ≤ a := by omega
        simp [h1, hle]

/-- In canonical form, the byte at an address is the buffered byte with that index (20_memory.md R44). -/
theorem Memory.read_eq_bytes {m : Memory} (h : Memory.wf m) (a : Nat) :
    Memory.read m a = (Memory.bytes m)[a]? := by
  have := lookup_of_addresses m 0 (by rw [← List.range_eq_range']; exact h.1) a
  simp only [Nat.zero_le, if_true, Nat.sub_zero] at this
  unfold Memory.read Memory.bytes
  rw [this]
  cases (m.map Prod.snd)[a]? <;> rfl

@[simp] theorem Memory.bytes_length (m : Memory) : (Memory.bytes m).length = Memory.blen m := by
  simp [Memory.bytes, Memory.blen]

@[simp] theorem Memory.bytes_nil : Memory.bytes [] = [] := rfl
@[simp] theorem Memory.blen_nil : Memory.blen [] = 0 := rfl

@[simp] theorem Memory.bytes_concat (m : Memory) (a : Nat) (b : Byte) :
    Memory.bytes (m ++ [(a, b)]) = Memory.bytes m ++ [b] := by simp [Memory.bytes]

@[simp] theorem Memory.blen_concat (m : Memory) (c : Host.Cell) :
    Memory.blen (m ++ [c]) = Memory.blen m + 1 := by simp [Memory.blen]

theorem Memory.wf_nil : Memory.wf [] := by decide

theorem Memory.wf_single (b : Byte) : Memory.wf [(0, b)] := by
  constructor
  · rfl
  · simp [Config.BUF_CAP]

theorem Memory.wf_clear : Memory.wf Memory.clear := Memory.wf_nil

/-- One byte more keeps the canonical form while the buffer space lasts. -/
theorem Memory.wf_concat {m : Memory} (h : Memory.wf m) (hb : Memory.blen m < Config.BUF_CAP)
    (b : Byte) : Memory.wf (m ++ [(Memory.blen m, b)]) := by
  refine ⟨?_, ?_⟩
  · simp [h.1, List.range_succ, Memory.blen]
  · simp only [List.length_append, List.length_singleton]
    unfold Memory.blen at hb; omega

/-- All that `Memory.append` can do when it answers. -/
theorem Memory.append_eq_ok {m m' : Memory} {b : Byte} :
    Memory.append m b = .ok m' ↔
      Memory.blen m < Config.BUF_CAP ∧ m' = m ++ [(Memory.blen m, b)] := by
  unfold Memory.append Memory.appendAddress
  split <;> simp_all [eq_comm]

/-- Appending keeps the canonical form (20_memory.md R40). -/
theorem Memory.wf_append {m m' : Memory} {b : Byte} (h : Memory.wf m)
    (ha : Memory.append m b = .ok m') : Memory.wf m' := by
  obtain ⟨hb, rfl⟩ := Memory.append_eq_ok.1 ha
  exact Memory.wf_concat h hb b

/-- A buffer made from at most 262 bytes is in canonical form. -/
theorem Memory.wf_ofBytes {bs : List Byte} (h : bs.length ≤ Config.BUF_CAP) :
    Memory.wf (Memory.ofBytes bs) := by
  unfold Memory.ofBytes
  refine ⟨?_, ?_⟩
  · simp [List.map_fst_zip]
  · simpa using h

@[simp] theorem Memory.bytes_ofBytes (bs : List Byte) : Memory.bytes (Memory.ofBytes bs) = bs := by
  simp [Memory.bytes, Memory.ofBytes, List.map_snd_zip]

/-- Equal buffered bytes are equal buffers: the canonical form is one form. -/
theorem Memory.eq_ofBytes {m : Memory} (h : Memory.wf m) : m = Memory.ofBytes (Memory.bytes m) := by
  have hz : (m.map Prod.fst).zip (m.map Prod.snd) = m := (List.zip_of_prod rfl rfl).symm
  rw [h.1] at hz
  rw [Memory.ofBytes, Memory.bytes_length]
  exact hz.symm

/-- The addresses of a buffer in canonical form rise strictly. -/
theorem Memory.addresses_rise {m : Memory} (h : Memory.wf m) :
    (m.map Prod.fst).Pairwise (· < ·) := by
  rw [h.1]; exact List.pairwise_lt_range

/-- Only addresses below `blen` hold a value (20_memory.md R40). -/
theorem Memory.read_eq_none_iff {m : Memory} (h : Memory.wf m) (a : Nat) :
    Memory.read m a = none ↔ Memory.blen m ≤ a := by
  rw [Memory.read_eq_bytes h]; simp

theorem Memory.read_concat_self {m : Memory} (h : Memory.wf m)
    (hb : Memory.blen m < Config.BUF_CAP) (b : Byte) :
    Memory.read (m ++ [(Memory.blen m, b)]) (Memory.blen m) = some b := by
  rw [Memory.read_eq_bytes (Memory.wf_concat h hb b)]
  simp [← Memory.bytes_length]

theorem Memory.read_concat_of_ne {m : Memory} (h : Memory.wf m)
    (hb : Memory.blen m < Config.BUF_CAP) (b : Byte) {a : Nat} (ha : a ≠ Memory.blen m) :
    Memory.read (m ++ [(Memory.blen m, b)]) a = Memory.read m a := by
  rw [Memory.read_eq_bytes (Memory.wf_concat h hb b), Memory.read_eq_bytes h, Memory.bytes_concat]
  rw [List.getElem?_append]
  split
  · rfl
  · rename_i hlt
    simp only [Memory.bytes_length] at hlt
    have h1 : 1 ≤ a - Memory.blen m := by omega
    rw [List.getElem?_eq_none (by simpa using h1),
      List.getElem?_eq_none (by simp only [Memory.bytes_length]; omega)]

/-- All that reading one cell can do when it answers. -/
theorem Memory.cell_eq_ok {m : Memory} {a : Nat} {b : Byte} :
    Memory.cell m a = .ok b ↔ Memory.read m a = some b := by
  unfold Memory.cell
  cases Memory.read m a <;> simp

/-- Reading consecutive addresses gives the slice of the buffered bytes. -/
theorem Memory.cells_eq_slice {m : Memory} (h : Memory.wf m) (n : Nat) :
    ∀ a, a + n ≤ Memory.blen m → Memory.cells m a n = .ok (((Memory.bytes m).drop a).take n) := by
  induction n with
  | zero => intro a _; simp [Memory.cells]
  | succ n ih =>
    intro a ha
    have hlt : a < (Memory.bytes m).length := by rw [Memory.bytes_length]; omega
    have hc : Memory.cell m a = .ok (Memory.bytes m)[a] := by
      rw [Memory.cell_eq_ok, Memory.read_eq_bytes h]; exact List.getElem?_eq_getElem hlt
    rw [Memory.cells, hc, ih (a + 1) (by omega), List.drop_eq_getElem_cons hlt]
    rfl

end Sys2Proof.Machine
end

