-- ==== Sys2Proof/Laws/State.lean ====
section
/-! SUPPORT. One lemma per field for each named update of the state, so that no proof unfolds an update. -/

namespace Sys2Proof.Machine

@[simp] theorem reset_st : State.reset.st = .seekingStart := rfl
@[simp] theorem reset_need : State.reset.need = 0 := rfl
@[simp] theorem reset_buf : State.reset.buf = [] := rfl
@[simp] theorem reset_queue : State.reset.queue = [] := rfl
@[simp] theorem reset_result : State.reset.result = none := rfl
@[simp] theorem reset_faultMark : State.reset.faultMark = false := rfl

@[simp] theorem resync_st (s : State) : (resync s).st = .seekingStart := rfl
@[simp] theorem resync_need (s : State) : (resync s).need = 0 := rfl
@[simp] theorem resync_buf (s : State) : (resync s).buf = [] := rfl
@[simp] theorem resync_queue (s : State) : (resync s).queue = s.queue := rfl
@[simp] theorem resync_result (s : State) : (resync s).result = s.result := rfl
@[simp] theorem resync_faultMark (s : State) : (resync s).faultMark = s.faultMark := rfl

@[simp] theorem startFrame_st (s : State) : (startFrame s).st = .readingHeader := rfl
@[simp] theorem startFrame_need (s : State) : (startFrame s).need = 3 := rfl
@[simp] theorem startFrame_buf (s : State) : (startFrame s).buf = [(0, 0x02)] := rfl
@[simp] theorem startFrame_queue (s : State) : (startFrame s).queue = s.queue := rfl
@[simp] theorem startFrame_result (s : State) : (startFrame s).result = s.result := rfl
@[simp] theorem startFrame_faultMark (s : State) : (startFrame s).faultMark = s.faultMark := rfl

@[simp] theorem deliver_st (r : Bool) (d : Data) (s : State) : (deliver r d s).st = s.st := rfl
@[simp] theorem deliver_need (r : Bool) (d : Data) (s : State) : (deliver r d s).need = s.need := rfl
@[simp] theorem deliver_buf (r : Bool) (d : Data) (s : State) : (deliver r d s).buf = s.buf := rfl
@[simp] theorem deliver_queue (r : Bool) (d : Data) (s : State) :
    (deliver r d s).queue = s.queue := rfl
@[simp] theorem deliver_result (r : Bool) (d : Data) (s : State) :
    (deliver r d s).result = some ⟨.ok, r, d⟩ := rfl
@[simp] theorem deliver_faultMark (r : Bool) (d : Data) (s : State) :
    (deliver r d s).faultMark = s.faultMark := rfl

@[simp] theorem raiseError_st (e : ErrCode) (s : State) : (raiseError e s).st = s.st := rfl
@[simp] theorem raiseError_need (e : ErrCode) (s : State) : (raiseError e s).need = s.need := rfl
@[simp] theorem raiseError_buf (e : ErrCode) (s : State) : (raiseError e s).buf = s.buf := rfl
@[simp] theorem raiseError_queue (e : ErrCode) (s : State) : (raiseError e s).queue = s.queue := rfl
@[simp] theorem raiseError_result (e : ErrCode) (s : State) :
    (raiseError e s).result = some ⟨e, false, .none⟩ := rfl
@[simp] theorem raiseError_faultMark (e : ErrCode) (s : State) :
    (raiseError e s).faultMark = (s.faultMark || e.marks) := rfl

@[simp] theorem issueFirst_st (r : Request) (s : State) : (issueFirst r s).st = s.st := rfl
@[simp] theorem issueFirst_need (r : Request) (s : State) : (issueFirst r s).need = s.need := rfl
@[simp] theorem issueFirst_buf (r : Request) (s : State) : (issueFirst r s).buf = s.buf := rfl
@[simp] theorem issueFirst_queue (r : Request) (s : State) :
    (issueFirst r s).queue = r :: s.queue := rfl
@[simp] theorem issueFirst_result (r : Request) (s : State) :
    (issueFirst r s).result = s.result := rfl
@[simp] theorem issueFirst_faultMark (r : Request) (s : State) :
    (issueFirst r s).faultMark = s.faultMark := rfl

end Sys2Proof.Machine
end

