-- ==== Sys2Proof/Laws/Ops.lean ====
section
/-! SUPPORT. For each shared operation, one lemma that says all it can do when it answers. -/

namespace Sys2Proof.Machine

/-- All that accumulating a byte can do when it answers (41_stream_parser.md R93, R94). -/
theorem accumulate_eq_ok {b : Byte} {s t : State} :
    accumulate b s = .ok t ↔
      s.need ≠ 0 ∧ Memory.blen s.buf < Config.BUF_CAP
        ∧ t = { s with buf := s.buf ++ [(Memory.blen s.buf, b)], need := s.need - 1 } := by
  unfold accumulate
  by_cases hn : s.need = 0
  · simp [hn]
  · cases hm : Memory.append s.buf b with
    | error f =>
      simp only [hn, if_false, reduceCtorEq, false_iff]
      rintro ⟨-, hb, -⟩
      have := (Memory.append_eq_ok (m := s.buf) (b := b)).2 ⟨hb, rfl⟩
      rw [hm] at this
      cases this
    | ok m =>
      obtain ⟨hb, rfl⟩ := Memory.append_eq_ok.1 hm
      simp [hn, hb, eq_comm]

/-- A byte seen in `SeekingStart` that is `STX` (41_stream_parser.md R92). -/
theorem seek_stx (s : State) : seek 0x02 s = startFrame s := rfl

/-- A byte seen in `SeekingStart` that is not `STX` changes nothing (41_stream_parser.md R92). -/
theorem seek_of_ne {b : Byte} (h : b ≠ 0x02) (s : State) : seek b s = s := if_neg h

@[simp] theorem seek_queue (b : Byte) (s : State) : (seek b s).queue = s.queue := by
  unfold seek; split <;> rfl
@[simp] theorem seek_faultMark (b : Byte) (s : State) : (seek b s).faultMark = s.faultMark := by
  unfold seek; split <;> rfl

/-- All that `settle` can do when it answers a next state. -/
@[simp] theorem settle_eq_next {c : Except Fault State} {t : State} :
    settle c = .next t ↔ c = .ok t := by
  cases c <;> simp [settle]

/-- Nothing issued, nothing fetched. -/
@[simp] theorem fetch_eq_none {s : State} : fetch s = none ↔ s.queue = [] := by
  unfold fetch; cases s.queue <;> simp

/-- All that a fetch can do when it answers: it takes the oldest operation and changes nothing else. -/
theorem fetch_eq_some {s t : State} {r : Request} :
    fetch s = some (r, t) ↔ ∃ rest, s.queue = r :: rest ∧ t = { s with queue := rest } := by
  unfold fetch
  cases h : s.queue with
  | nil => simp
  | cons x xs => simp [eq_comm]

/-- A rejected command word ends in `IllegalOp` (30_encoding.md R69). -/
theorem reject_eq (e : DecodeError) (s : State) : reject e s = raiseError .illegalOp s := by
  cases e; rfl

/-- All that the length byte's read can do when it answers (30_encoding.md R64). -/
theorem payloadNeed_eq_ok {m : Memory} {n : Nat} :
    payloadNeed m = .ok n ↔ ∃ len, Memory.read m 3 = some len ∧ n = len.toNat + 3 := by
  unfold payloadNeed
  cases h : Memory.cell m 3 with
  | error f =>
    simp only [reduceCtorEq, false_iff]
    rintro ⟨len, hl, -⟩
    rw [Memory.cell_eq_ok.2 hl] at h
    cases h
  | ok len =>
    have hl := Memory.cell_eq_ok.1 h
    simp [hl, tailLength, Config.FOOTER_LEN, eq_comm]

/-- What the record of `TAKE` is when the buffered bytes are there (41_stream_parser.md R98). -/
theorem readFields_eq_ok {m : Memory} (h : Memory.wf m) {a c l : Byte}
    (ha : Memory.read m 1 = some a) (hc : Memory.read m 2 = some c) (hl : Memory.read m 3 = some l)
    (hb : 4 + l.toNat ≤ Memory.blen m) :
    readFields m = .ok ⟨a, c, ((Memory.bytes m).drop 4).take l.toNat⟩ := by
  have hcells := Memory.cells_eq_slice h l.toNat 4 hb
  simp [readFields, Memory.cell_eq_ok.2 ha, Memory.cell_eq_ok.2 hc, Memory.cell_eq_ok.2 hl,
    Config.HEADER_LEN, hcells, bind, Except.bind, pure, Except.pure]

/-- The payload slice of an operand port that holds exactly `plen` bytes (40_frame_builder.md R80). -/
@[simp] theorem payloadSlice_self (pdata : List Byte) :
    payloadSlice pdata pdata.length = .ok pdata := by simp [payloadSlice]

/-- All that performing an operation can do when it answers. -/
theorem perform_eq_some {i : Instr} {s t : State} {r : Result} :
    perform i s = some (r, t) ↔ exec i s = .next t ∧ t.result = some r := by
  cases h : exec i s with
  | next u =>
    rcases hu : u.result with _ | q
    · simp only [perform, h, hu, Option.map_none, reduceCtorEq, Host.Outcome.next.injEq, false_iff]
      rintro ⟨rfl, h2⟩
      rw [hu] at h2; cases h2
    · simp only [perform, h, hu, Option.map_some, Option.some.injEq, Prod.mk.injEq,
        Host.Outcome.next.injEq]
      constructor
      · rintro ⟨rfl, rfl⟩; exact ⟨rfl, hu⟩
      · rintro ⟨rfl, h2⟩; rw [hu] at h2; exact ⟨Option.some.inj h2, rfl⟩
  | fault f => simp [perform, h]
  | refused q => simp [perform, h]

end Sys2Proof.Machine
end

