-- ==== Sys2Proof/Laws/Exec.lean ====
section
/-! SUPPORT. For each meaning, one lemma that says all it can do when it answers a next state. -/

namespace Sys2Proof.Machine

/-- The state after a byte has been accumulated (41_stream_parser.md R93, R94). -/
def accumulated (b : Byte) (s : State) : State :=
  { s with buf := s.buf ++ [(Memory.blen s.buf, b)], need := s.need - 1 }

@[simp] theorem accumulated_st (b : Byte) (s : State) : (accumulated b s).st = s.st := rfl
@[simp] theorem accumulated_need (b : Byte) (s : State) : (accumulated b s).need = s.need - 1 := rfl
@[simp] theorem accumulated_buf (b : Byte) (s : State) :
    (accumulated b s).buf = s.buf ++ [(Memory.blen s.buf, b)] := rfl
@[simp] theorem accumulated_queue (b : Byte) (s : State) :
    (accumulated b s).queue = s.queue := rfl
@[simp] theorem accumulated_faultMark (b : Byte) (s : State) :
    (accumulated b s).faultMark = s.faultMark := rfl

/-- Accumulating answers when a byte is needed and the buffer space has room. -/
theorem accumulate_ok {b : Byte} {s : State} (hn : s.need ≠ 0)
    (hb : Memory.blen s.buf < Config.BUF_CAP) : accumulate b s = .ok (accumulated b s) :=
  accumulate_eq_ok.2 ⟨hn, hb, rfl⟩

/-- All that `PUSH` in `ReadingHeader` can do when it answers (41_stream_parser.md R93). -/
theorem pushHeader_eq_ok {b : Byte} {s t : State} :
    pushHeader b s = .ok t ↔
      s.need ≠ 0 ∧ Memory.blen s.buf < Config.BUF_CAP
        ∧ ((s.need ≠ 1 ∧ t = deliver false .none (accumulated b s))
          ∨ (s.need = 1 ∧ ∃ len, Memory.read (accumulated b s).buf 3 = some len
              ∧ t = deliver false .none
                  { accumulated b s with need := len.toNat + 3, st := .readingPayloadAndFooter })) := by
  by_cases hn : s.need = 0
  · simp [pushHeader, accumulate, hn, bind, Except.bind]
  by_cases hb : Memory.blen s.buf < Config.BUF_CAP
  · simp only [pushHeader, accumulate_ok hn hb, bind, Except.bind, pure, Except.pure]
    by_cases h1 : s.need = 1
    · have h0 : (accumulated b s).need = 0 := by simp [h1]
      simp only [h0, if_true]
      rcases hp : payloadNeed (accumulated b s).buf with f | n
      · simp only [reduceCtorEq, false_iff]
        rintro ⟨-, -, ⟨hne, -⟩ | ⟨-, len, hl, -⟩⟩
        · exact hne h1
        · rw [payloadNeed_eq_ok.2 ⟨len, hl, rfl⟩] at hp; cases hp
      · obtain ⟨len, hl, rfl⟩ := payloadNeed_eq_ok.1 hp
        simp only [Except.ok.injEq, hl, Option.some.injEq, exists_eq_left']
        simp [h1, hb, eq_comm]
    · have h0 : (accumulated b s).need ≠ 0 := by simp; omega
      simp only [h0, if_false, Except.ok.injEq]
      simp [hn, h1, hb, eq_comm]
  · have ha : Memory.append s.buf b = .error (.bufferAddress (Memory.blen s.buf)) := by
      simp [Memory.append, hb]
    simp [pushHeader, accumulate, hn, ha, hb, bind, Except.bind]

/-- All that the completing push can do when it answers (41_stream_parser.md R95, R96). -/
theorem completeFrame_eq_ok {s t : State} :
    completeFrame s = .ok t ↔
      7 ≤ Memory.blen s.buf
        ∧ ((tailOk (Memory.bytes s.buf) = true ∧ t = deliver true .none { s with st := .complete })
          ∨ (tailOk (Memory.bytes s.buf) = false ∧ t = deliver false .none (resync s))) := by
  unfold completeFrame
  have hm : Config.MIN_FRAME = 7 := rfl
  rw [hm]
  by_cases hl : Memory.blen s.buf < 7
  · simp [hl]
  · rw [if_neg hl]
    cases tailOk (Memory.bytes s.buf) <;> simp [eq_comm] <;> omega

/-- All that `PUSH` in `ReadingPayloadAndFooter` can do when it answers (41_stream_parser.md R94 to R96). -/
theorem pushPayload_eq_ok {b : Byte} {s t : State} :
    pushPayload b s = .ok t ↔
      s.need ≠ 0 ∧ Memory.blen s.buf < Config.BUF_CAP
        ∧ ((s.need ≠ 1 ∧ t = deliver false .none (accumulated b s))
          ∨ (s.need = 1 ∧ completeFrame (accumulated b s) = .ok t)) := by
  by_cases hn : s.need = 0
  · simp [pushPayload, accumulate, hn, bind, Except.bind]
  by_cases hb : Memory.blen s.buf < Config.BUF_CAP
  · simp only [pushPayload, accumulate_ok hn hb, bind, Except.bind, pure, Except.pure]
    by_cases h1 : s.need = 1
    · have h0 : (accumulated b s).need = 0 := by simp [h1]
      simp only [h0, if_true]
      simp [h1, hb]
    · have h0 : (accumulated b s).need ≠ 0 := by simp; omega
      simp only [h0, if_false, Except.ok.injEq]
      simp [hn, h1, hb, eq_comm]
  · have ha : Memory.append s.buf b = .error (.bufferAddress (Memory.blen s.buf)) := by
      simp [Memory.append, hb]
    simp [pushPayload, accumulate, hn, ha, hb, bind, Except.bind]

/-- All that an extraction can do when it answers (41_stream_parser.md R98, R99). -/
theorem extract_eq_next {read : Memory → Except Fault Data} {s t : State} :
    extract read s = .next t ↔
      (s.st = .complete ∧ ∃ d, read s.buf = .ok d ∧ t = deliver false d (resync s))
        ∨ (s.st ≠ .complete ∧ t = raiseError .notReady s) := by
  unfold extract
  by_cases hc : s.st = .complete
  · rcases hr : read s.buf with f | d <;> simp [hc, eq_comm]
  · simp [hc, eq_comm]

/-- All that `TAKE` can do when it answers (41_stream_parser.md R98). -/
theorem execTake_eq_next {s t : State} :
    execTake s = .next t ↔
      (s.st = .complete ∧ ∃ f, readFields s.buf = .ok f ∧ t = deliver false (.fields f) (resync s))
        ∨ (s.st ≠ .complete ∧ t = raiseError .notReady s) := by
  rw [execTake, extract_eq_next]
  rcases h : readFields s.buf with f | r <;> simp [takeData, h]

/-- All that `TAKE_RAW` can do when it answers (41_stream_parser.md R99). -/
theorem execTakeRaw_eq_next {s t : State} :
    execTakeRaw s = .next t ↔
      (s.st = .complete ∧ t = deliver false (.bytes (Memory.bytes s.buf)) (resync s))
        ∨ (s.st ≠ .complete ∧ t = raiseError .notReady s) := by
  rw [execTakeRaw, extract_eq_next]
  simp

/-- All that the payload slice can do when it answers (20_memory.md R42). -/
theorem payloadSlice_eq_ok {pdata p : List Byte} {plen : Nat} :
    payloadSlice pdata plen = .ok p ↔ plen ≤ pdata.length ∧ p = pdata.take plen := by
  unfold payloadSlice
  by_cases h : plen ≤ pdata.length <;> simp [h, eq_comm]

/-- All that `ENCODE` can do when it answers (40_frame_builder.md R80, R83). -/
theorem execEncode_eq_next {addr cmd : Byte} {plen : Nat} {pdata : List Byte} {s t : State} :
    execEncode addr cmd plen pdata s = .next t ↔
      (255 < plen ∧ t = raiseError .payloadTooLarge s)
        ∨ (plen ≤ 255 ∧ plen ≤ pdata.length
          ∧ t = deliver false (.bytes (buildFrame addr cmd plen (pdata.take plen))) s) := by
  unfold execEncode
  have hm : Config.MAX_PAYLOAD = 255 := rfl
  rw [hm]
  by_cases hl : 255 < plen
  · simp only [hl, if_true, Host.Outcome.next.injEq, true_and, eq_comm (a := raiseError _ _)]
    constructor
    · exact .inl
    · rintro (h | ⟨h, -⟩)
      · exact h
      · omega
  · rw [if_neg hl]
    have hl' : plen ≤ 255 := by omega
    rcases hp : payloadSlice pdata plen with f | p
    · simp only [reduceCtorEq, false_iff]
      rintro (⟨h, -⟩ | ⟨-, h, -⟩)
      · exact hl h
      · rw [payloadSlice_eq_ok.2 ⟨h, rfl⟩] at hp; cases hp
    · obtain ⟨h, rfl⟩ := payloadSlice_eq_ok.1 hp
      simp [hl, hl', h, eq_comm]

/-- The dispatch of `PUSH` on the parser's mode (41_stream_parser.md R91). -/
theorem execPushWith_eq_next {p : CompletePush} {b : Byte} {s t : State} :
    execPushWith p b s = .next t ↔
      (s.st = .seekingStart ∧ t = deliver false .none (seek b s))
        ∨ (s.st = .readingHeader ∧ pushHeader b s = .ok t)
        ∨ (s.st = .readingPayloadAndFooter ∧ pushPayload b s = .ok t)
        ∨ (s.st = .complete ∧ t = pushComplete p b s) := by
  unfold execPushWith
  cases h : s.st
  case seekingStart => simp [pushSeeking, eq_comm]
  case readingHeader => simp
  case readingPayloadAndFooter => simp
  case complete => simp [eq_comm]

end Sys2Proof.Machine
end

