-- ==== Sys2Proof/Laws/Client.lean ====
section
/-! SUPPORT. Sequences of operations and the client's procedures: what one element of each does, and that an
operation reads nothing of the state but the parser's triple (10_state.md R24). -/

namespace Sys2Proof.Machine

/-- What an operation does is read off the parser's triple alone. -/
theorem exec_sameParser {i : Instr} {s s' t : State} (hp : s.sameParser s') (h : exec i s = .next t) :
    ∃ t', exec i s' = .next t' ∧ t.sameParser t' ∧ t'.result = t.result := by
  obtain ⟨st, need, buf, q', r', m'⟩ := s'
  obtain ⟨rfl, rfl, rfl⟩ := hp
  have hseek : ∀ b : Byte, (seek b s).sameParser (seek b ⟨s.st, s.need, s.buf, q', r', m'⟩) := by
    intro b; unfold seek; split <;> exact ⟨rfl, rfl, rfl⟩
  cases i with
  | reset =>
    obtain rfl : deliver false .none (resync s) = t := by simpa [exec, execReset] using h
    exact ⟨_, rfl, ⟨rfl, rfl, rfl⟩, rfl⟩
  | push b =>
    rcases execPushWith_eq_next.1 h with ⟨hs, rfl⟩ | ⟨hs, h⟩ | ⟨hs, h⟩ | ⟨hs, rfl⟩
    · exact ⟨_, execPushWith_eq_next.2 (.inl ⟨hs, rfl⟩), hseek b, rfl⟩
    · obtain ⟨hn, hb, ⟨h1, rfl⟩ | ⟨h1, len, hl, rfl⟩⟩ := pushHeader_eq_ok.1 h
      · exact ⟨_, execPushWith_eq_next.2 (.inr (.inl ⟨hs, pushHeader_eq_ok.2 ⟨hn, hb, .inl ⟨h1, rfl⟩⟩⟩)),
          ⟨rfl, rfl, rfl⟩, rfl⟩
      · exact ⟨_, execPushWith_eq_next.2
          (.inr (.inl ⟨hs, pushHeader_eq_ok.2 ⟨hn, hb, .inr ⟨h1, len, hl, rfl⟩⟩⟩)), ⟨rfl, rfl, rfl⟩, rfl⟩
    · obtain ⟨hn, hb, ⟨h1, rfl⟩ | ⟨h1, hc⟩⟩ := pushPayload_eq_ok.1 h
      · exact ⟨_, execPushWith_eq_next.2
          (.inr (.inr (.inl ⟨hs, pushPayload_eq_ok.2 ⟨hn, hb, .inl ⟨h1, rfl⟩⟩⟩))), ⟨rfl, rfl, rfl⟩, rfl⟩
      · obtain ⟨h7, ⟨ht, rfl⟩ | ⟨ht, rfl⟩⟩ := completeFrame_eq_ok.1 hc
        · exact ⟨_, execPushWith_eq_next.2 (.inr (.inr (.inl ⟨hs, pushPayload_eq_ok.2
            ⟨hn, hb, .inr ⟨h1, completeFrame_eq_ok.2 ⟨h7, .inl ⟨ht, rfl⟩⟩⟩⟩⟩))), ⟨rfl, rfl, rfl⟩, rfl⟩
        · exact ⟨_, execPushWith_eq_next.2 (.inr (.inr (.inl ⟨hs, pushPayload_eq_ok.2
            ⟨hn, hb, .inr ⟨h1, completeFrame_eq_ok.2 ⟨h7, .inr ⟨ht, rfl⟩⟩⟩⟩⟩))), ⟨rfl, rfl, rfl⟩, rfl⟩
    · refine ⟨_, execPushWith_eq_next.2 (.inr (.inr (.inr ⟨hs, rfl⟩))), ?_, ?_⟩
      · cases Config.completePush
        · exact ⟨rfl, rfl, rfl⟩
        · simp only [pushComplete, seek]; split <;> exact ⟨rfl, rfl, rfl⟩
      · cases Config.completePush <;> rfl
  | take =>
    rcases execTake_eq_next.1 h with ⟨hs, f, hf, rfl⟩ | ⟨hs, rfl⟩
    · exact ⟨_, execTake_eq_next.2 (.inl ⟨hs, f, hf, rfl⟩), ⟨rfl, rfl, rfl⟩, rfl⟩
    · exact ⟨_, execTake_eq_next.2 (.inr ⟨hs, rfl⟩), ⟨rfl, rfl, rfl⟩, rfl⟩
  | takeRaw =>
    rcases execTakeRaw_eq_next.1 h with ⟨hs, rfl⟩ | ⟨hs, rfl⟩
    · exact ⟨_, execTakeRaw_eq_next.2 (.inl ⟨hs, rfl⟩), ⟨rfl, rfl, rfl⟩, rfl⟩
    · exact ⟨_, execTakeRaw_eq_next.2 (.inr ⟨hs, rfl⟩), ⟨rfl, rfl, rfl⟩, rfl⟩
  | encode a c n p =>
    rcases execEncode_eq_next.1 h with ⟨hn, rfl⟩ | ⟨hn, hp, rfl⟩
    · exact ⟨_, execEncode_eq_next.2 (.inl ⟨hn, rfl⟩), ⟨rfl, rfl, rfl⟩, rfl⟩
    · exact ⟨_, execEncode_eq_next.2 (.inr ⟨hn, hp, rfl⟩), ⟨rfl, rfl, rfl⟩, rfl⟩

/-- The same for an operation performed with its result. -/
theorem perform_sameParser {i : Instr} {s s' t : State} {r : Result} (hp : s.sameParser s')
    (h : perform i s = some (r, t)) : ∃ t', perform i s' = some (r, t') ∧ t.sameParser t' := by
  obtain ⟨he, hr⟩ := perform_eq_some.1 h
  obtain ⟨t', he', ht, hr'⟩ := exec_sameParser hp he
  exact ⟨t', perform_eq_some.2 ⟨he', hr'.trans hr⟩, ht⟩

/-- All that a non-empty sequence of operations can do when it answers. -/
theorem performAll_cons_eq_some {i : Instr} {is : List Instr} {s u : State} {out : List Result} :
    performAll (i :: is) s = some (out, u) ↔
      ∃ r t rs, perform i s = some (r, t) ∧ performAll is t = some (rs, u) ∧ out = r :: rs := by
  rcases hp : perform i s with _ | ⟨r, t⟩
  · simp [performAll, hp]
  · rcases ha : performAll is t with _ | ⟨rs, v⟩ <;> simp [performAll, hp, ha, eq_comm, and_comm]

/-- All that a non-empty sequence of pushes can do when it answers. -/
theorem pushN_cons_eq_some {b : Byte} {bs : List Byte} {s u : State} {out : List Bool} :
    pushN (b :: bs) s = some (out, u) ↔
      ∃ r t flags, perform (.push b) s = some (r, t) ∧ pushN bs t = some (flags, u)
        ∧ out = r.frameReady :: flags := by
  rcases hp : perform (.push b) s with _ | ⟨r, t⟩
  · simp [pushN, hp]
  · rcases ha : pushN bs t with _ | ⟨fs, v⟩ <;> simp [pushN, hp, ha, eq_comm, and_comm]

/-- When a received byte completes no frame: its push reports `frame_ready = false`. -/
theorem feedByte_eq_more {b : Byte} {p q : State} :
    feedByte b p = .more q ↔ ∃ r, perform (.push b) p = some (r, q) ∧ r.frameReady = false := by
  unfold feedByte
  split
  · next h => simp [h]
  · next r t h =>
    cases hr : r.frameReady
    · simp only [h, Bool.false_eq_true, if_false, Feed.more.injEq, Option.some.injEq, Prod.mk.injEq]
      constructor
      · rintro rfl; exact ⟨r, ⟨rfl, rfl⟩, hr⟩
      · rintro ⟨_, ⟨-, h⟩, -⟩; exact h
    · simp only [if_true, h, Option.some.injEq, Prod.mk.injEq]
      constructor
      · intro h; split at h <;> cases h
      · rintro ⟨_, ⟨rfl, -⟩, hf⟩; rw [hr] at hf; cases hf

/-- When a received byte completes a frame: its push reports `frame_ready = true`, and the raw extraction that
follows at once returns the frame. -/
theorem feedByte_eq_frame {b : Byte} {p u : State} {raw : List Byte} :
    feedByte b p = .frame raw u ↔
      ∃ r q e f, perform (.push b) p = some (r, q) ∧ r.frameReady = true
        ∧ perform .takeRaw q = some (⟨e, f, .bytes raw⟩, u) := by
  unfold feedByte
  split
  · next h => simp [h]
  · next r t h =>
    cases hr : r.frameReady
    · simp only [h, Bool.false_eq_true, if_false, reduceCtorEq, false_iff]
      rintro ⟨_, _, _, _, h, hf, -⟩
      cases h; rw [hr] at hf; cases hf
    · simp only [if_true, h]
      constructor
      · intro hx
        split at hx
        · next e f raw' v ht => cases hx; exact ⟨r, t, e, f, rfl, hr, ht⟩
        · cases hx
      · rintro ⟨_, _, e, f, h, -, ht⟩
        cases h; rw [ht]

/-- A received byte does to equal parsers the same. -/
theorem feedByte_more_sameParser {b : Byte} {p p' q : State} (hp : p.sameParser p')
    (h : feedByte b p = .more q) : ∃ q', feedByte b p' = .more q' ∧ q.sameParser q' := by
  obtain ⟨r, h1, h2⟩ := feedByte_eq_more.1 h
  obtain ⟨q', h1', hq⟩ := perform_sameParser hp h1
  exact ⟨q', feedByte_eq_more.2 ⟨r, h1', h2⟩, hq⟩

/-- A received byte completes the same frame in equal parsers. -/
theorem feedByte_frame_sameParser {b : Byte} {p p' u : State} {raw : List Byte} (hp : p.sameParser p')
    (h : feedByte b p = .frame raw u) : ∃ u', feedByte b p' = .frame raw u' ∧ u.sameParser u' := by
  obtain ⟨r, q, e, f, h1, h2, h3⟩ := feedByte_eq_frame.1 h
  obtain ⟨q', h1', hq⟩ := perform_sameParser hp h1
  obtain ⟨u', h3', hu⟩ := perform_sameParser hq h3
  exact ⟨u', feedByte_eq_frame.2 ⟨r, q', e, f, h1', h2, h3'⟩, hu⟩

/-- `RESET` gives a result in every state. -/
theorem perform_reset (p : State) :
    perform .reset p = some (⟨.ok, false, .none⟩, deliver false .none (resync p)) := rfl

/-- The connection-wide parser after a call that did not time out is the call's parser. -/
theorem Exchange.keptParser_of_ne {x : Exchange} (h : x.result ≠ .timeout) : x.keptParser = x.parser := by
  unfold Exchange.keptParser
  split
  · next ht => exact absurd ht h
  all_goals rfl

/-- After a call that timed out the connection-wide parser is in its reset state. -/
theorem Exchange.keptParser_of_timeout {x : Exchange} (h : x.result = .timeout) :
    x.keptParser = deliver false .none (resync x.parser) := by
  unfold Exchange.keptParser
  rw [h]; rfl

end Sys2Proof.Machine
end

