-- ==== Sys2Proof/Laws/Decode.lean ====
section
/-! SUPPORT. The two fields of the command word and the word made from them are inverse
(30_encoding.md R67). -/

namespace Sys2Proof

theorem getLsbD_commandWord (op : OpCode) (din : Byte) (i : Nat) :
    (commandWord op din).getLsbD i = if i < 8 then din.getLsbD i else op.getLsbD (i - 8) := by
  have h := BitVec.getLsbD_append (x := op) (y := din) (i := i)
  cases hi : decide (i < 8) <;> simp_all [commandWord]

@[simp] theorem opField_commandWord (op : OpCode) (din : Byte) :
    opField (commandWord op din) = op := by
  apply BitVec.eq_of_getLsbD_eq
  intro i hi
  simp [opField, getLsbD_commandWord, hi]

@[simp] theorem dinField_commandWord (op : OpCode) (din : Byte) :
    dinField (commandWord op din) = din := by
  apply BitVec.eq_of_getLsbD_eq
  intro i hi
  simp [dinField, getLsbD_commandWord, hi]

@[simp] theorem commandWord_fields (cw : CommandWord) :
    commandWord (opField cw) (dinField cw) = cw := by
  apply BitVec.eq_of_getLsbD_eq
  intro i hi
  rw [getLsbD_commandWord]
  split <;> rename_i h8
  · simp [dinField, h8]
  · have h3 : i - 8 < 3 := by omega
    simp [opField, h3, show 8 + (i - 8) = i by omega]

end Sys2Proof
end

