-- ==== Sys2Proof/Laws/Flags.lean ====
section
/-! SUPPORT. What the checks over byte sequences say, condition by condition. -/

namespace Sys2Proof.Machine

@[simp] theorem byteSum_nil : byteSum [] = 0 := rfl

@[simp] theorem byteSum_cons (b : Byte) (s : List Byte) :
    byteSum (b :: s) = b.toNat + byteSum s := by simp [byteSum]

@[simp] theorem byteSum_append (s t : List Byte) : byteSum (s ++ t) = byteSum s + byteSum t := by
  simp [byteSum]

/-- The three checks of 41_stream_parser.md R100. -/
theorem tailOk_iff {f : List Byte} :
    tailOk f = true ↔
      f[f.length - 1]? = some 0x0D ∧ f[f.length - 3]? = some 0x03
        ∧ f[f.length - 2]? = some (sum8 (f.take (f.length - 2))) := by
  simp only [tailOk, Bool.and_eq_true, beq_iff_eq, and_assoc]
  rfl

/-- The six conditions of 30_encoding.md R62. -/
theorem validFrame_iff {f : List Byte} :
    validFrame f = true ↔
      7 ≤ f.length ∧ f[0]? = some 0x02 ∧ (∃ len : Byte, f[3]? = some len ∧ f.length = 7 + len.toNat)
        ∧ f[f.length - 3]? = some 0x03
        ∧ f[f.length - 2]? = some (sum8 (f.take (f.length - 2)))
        ∧ f[f.length - 1]? = some 0x0D := by
  have hm : Config.MIN_FRAME = 7 := rfl
  have hl : (f[3]?.map (fun l => Config.frameLen l.toNat) = some f.length)
      ↔ ∃ len : Byte, f[3]? = some len ∧ f.length = 7 + len.toNat := by
    simp only [Option.map_eq_some_iff, Config.frameLen, Config.HEADER_LEN, Config.FOOTER_LEN]
    constructor <;> rintro ⟨len, h1, h2⟩ <;> exact ⟨len, h1, by omega⟩
  simp only [validFrame, Bool.and_eq_true, decide_eq_true_eq, beq_iff_eq, and_assoc, hl]
  rw [hm]
  rfl

/-- `decode_fields` on a valid frame (30_encoding.md R63). -/
theorem decodeFields_of_valid {f : List Byte} {a c l : Byte} (h : validFrame f = true)
    (ha : f[1]? = some a) (hc : f[2]? = some c) (hl : f[3]? = some l) :
    decodeFields f = some ⟨a, c, (f.drop 4).take l.toNat⟩ := by
  simp [decodeFields, h, ha, hc, hl]

end Sys2Proof.Machine
end

