-- ==== Sys2Proof/Laws/PerInstr.lean ====
section
/-! SUPPORT. One family of statements about every operation as encoded: the command word to which it
assembles is selected by its own row of the operation table and by no other (30_encoding.md R68). -/

namespace Sys2Proof.Laws

/-- Among the rows of the table, exactly those with the operation's mnemonic select its command word. -/
def EncodedRow.Statement (i : Instr) : Prop :=
  ∀ row ∈ opTable, row.selects (encode i).cw = (row.mnemonic == i.mnemonic)

theorem EncodedRow.reset : EncodedRow.Statement .reset := by
  unfold EncodedRow.Statement; decide

theorem EncodedRow.push (din : Byte) : EncodedRow.Statement (.push din) := by
  unfold EncodedRow.Statement
  revert din; decide

theorem EncodedRow.take : EncodedRow.Statement .take := by
  unfold EncodedRow.Statement; decide

theorem EncodedRow.takeRaw : EncodedRow.Statement .takeRaw := by
  unfold EncodedRow.Statement; decide

theorem EncodedRow.encode (addr cmd : Byte) (plen : Nat) (pdata : List Byte) :
    EncodedRow.Statement (.encode addr cmd plen pdata) := by
  have h : ∀ row ∈ opTable, row.selects (commandWord 4 0) = (row.mnemonic == "ENCODE") := by decide
  exact h

end Sys2Proof.Laws
end

