-- ==== Sys2Proof/Tests/Slice0.lean ====
section
/-! SUPPORT. Tests of one step on small states, with results taken from spec/95_test_vectors.md or worked out by
hand from the rules; the smoke test of WellFormed; and for every statement with hypotheses a witness that meets
them. -/

namespace Sys2Proof.Tests

open Sys2Proof.Machine

/-- A machine whose parser is in the given mode with the given bytes buffered. -/
def sample (st : ParserState) (need : Nat) (bs : List Byte) : State :=
  { State.reset with st := st, need := need, buf := Memory.ofBytes bs }

/-- The state an outcome answers, if it answers one. -/
def nextOf (o : Out) : Option State :=
  match o with
  | .next t => some t
  | .fault _ => none
  | .refused _ => none

/-- A payload of `n` equal bytes. -/
def filled (n : Nat) (b : Byte) : List Byte := List.replicate n b

theorem filled_length (n : Nat) (b : Byte) : (filled n b).length = n := List.length_replicate

/-- The reference frame `VF` of 95_test_vectors.md. -/
def vf : List Byte := [0x02, 0x00, 0x4F, 0x01, 0x90, 0x03, 0xE5, 0x0D]

/-- The reference frame, completed and waiting. -/
def done : State := sample .complete 0 vf

/-! ## Well-formedness -/

theorem test_wf_refuses_plen_other_than_length :
    Instr.wellFormed (.encode 0x00 0x4F 2 [0x90]) = false := by decide

theorem test_wf_refuses_port_plen_other_than_length :
    OperandPort.wellFormed ⟨0x00, 0x4F, 0, [0x90]⟩ = false := by decide

theorem test_wf_accepts_long_payload :
    Instr.wellFormed (.encode 0x00 0x10 256 (filled 256 0x00)) = true := by
  simp [Instr.wellFormed, filled_length]

/-! ## Decoding: words written out from 30_encoding.md R68, `op` then `din` -/

theorem test_decode_reset_ignores_din :
    decodeTableWord 16 0b00010100101 = some .reset := by decide

theorem test_decode_push :
    decodeTableWord 16 0b00111100101 = some (.push 0xE5) := by decide

theorem test_decode_take_ignores_din :
    decodeTableWord 16 0b01011111111 = some .take := by decide

theorem test_decode_takeRaw : decodeTableWord 16 0b01100000000 = some .takeRaw := by decide

theorem test_decode_encode :
    decode ⟨0b10000000000, ⟨0x00, 0x4F, 1, [0x90]⟩⟩ = .ok (.encode 0x00 0x4F 1 [0x90]) := rfl

/-- Vectors X1 to X3. -/
theorem test_decode_reserved :
    decodeTableWord 16 0x500 = none ∧ decodeTableWord 16 0x6FF = none
      ∧ decodeTableWord 16 0x700 = none := by decide

/-! ## One step -/

/-- Vector T16, from `(Pay, 7, 1)`; the word is X4. -/
theorem test_reset_in_mid_frame :
    (nextOf (step ((sample .readingPayloadAndFooter 1 (vf.take 7)).withFetchWord 16 0x0A5))).map
        (fun t => (t.triple, t.result, t.queue))
      = some (ParserTriple.reset, some ⟨.ok, false, .none⟩, []) := by decide

/-- Vector T1, row 6: the byte `LEN` sets `need`. -/
theorem test_push_length_byte :
    (nextOf (step ((sample .readingHeader 1 [0x02, 0x00, 0x4F]).withFetchWord 16 0x101))).map
        (fun t => (t.triple, t.result))
      = some (⟨.readingPayloadAndFooter, 4, [0x02, 0x00, 0x4F, 0x01]⟩, some ⟨.ok, false, .none⟩) := by
  decide

/-- Vector T1, row 10: the completing push. -/
theorem test_push_completes_frame :
    (nextOf (step ((sample .readingPayloadAndFooter 1 (vf.take 7)).withFetchWord 16 0x10D))).map
        (fun t => (t.triple, t.result))
      = some (⟨.complete, 0, vf⟩, some ⟨.ok, true, .none⟩) := by decide

/-- Vector T8, single-byte form, under both settings of the open parameter. -/
theorem test_push_in_complete :
    (nextOf (execPushWith .drop 0x02 done)).map State.triple = some ParserTriple.reset
      ∧ (nextOf (execPushWith .reprocess 0x02 done)).map State.triple
          = some ⟨.readingHeader, 3, [0x02]⟩ := by decide

/-- Vector T1: the fields of the reference frame. -/
theorem test_take_fields :
    (nextOf (step (done.withFetchWord 16 0x2FF))).map (fun t => (t.triple, t.result))
      = some (ParserTriple.reset, some ⟨.ok, false, .fields ⟨0x00, 0x4F, [0x90]⟩⟩) := by decide

/-- Vector T13: `NotReady` in mid-frame leaves the partial frame. -/
theorem test_take_not_ready :
    (nextOf (exec .take (sample .readingHeader 2 [0x02, 0x00]))).map
        (fun t => (t.triple, t.result, t.faultMark))
      = some (⟨.readingHeader, 2, [0x02, 0x00]⟩, some ⟨.notReady, false, .none⟩, true) := by decide

/-- Vector T1: the raw frame. -/
theorem test_takeRaw_bytes :
    (nextOf (step (done.withFetchWord 16 0x300))).map (fun t => (t.triple, t.result))
      = some (ParserTriple.reset, some ⟨.ok, false, .bytes vf⟩) := by decide

/-- Vector T13 on a fresh parser. -/
theorem test_takeRaw_not_ready :
    (nextOf (step (State.reset.withFetchWord 16 0x300))).map (fun t => (t.triple, t.result))
      = some (ParserTriple.reset, some ⟨.notReady, false, .none⟩) := by decide

/-- Vector E3: the sum wraps and `SUM` equals `ETX`. -/
theorem test_encode_sum_wraps :
    (nextOf (exec (.encode 0xFF 0xFF 1 [0xFF]) done)).map (fun t => (t.buf, t.result))
      = some (done.buf, some ⟨.ok, false, .bytes [0x02, 0xFF, 0xFF, 0x01, 0xFF, 0x03, 0x03, 0x0D]⟩) := by
  decide

/-- Vector E7: 256 payload bytes. -/
theorem test_encode_payload_too_large :
    (nextOf (exec (.encode 0x00 0x10 256 (filled 256 0x00)) State.reset)).map (·.result)
      = some (some ⟨.payloadTooLarge, false, .none⟩) := by decide

/-- Vector X1: a reserved code is an error result, parser unchanged. -/
theorem test_reserved_code_step :
    (nextOf (step (done.withFetchWord 16 0x500))).map (fun t => (t.triple, t.result))
      = some (done.triple, some ⟨.illegalOp, false, .none⟩) := by decide

/-- The numbers of 10_state.md R29 and 60_exceptions.md R140. -/
theorem test_codes :
    ([ParserState.seekingStart, .readingHeader, .readingPayloadAndFooter, .complete].map ParserState.code)
        = [0, 1, 2, 3]
      ∧ ([ErrCode.ok, .payloadTooLarge, .notReady, .illegalOp].map ErrCode.code) = [0, 1, 2, 3] := by decide

/-- The sizes of 00_scope.md R6 and R7. -/
theorem test_sizes :
    Config.MIN_FRAME = 7 ∧ Config.MAX_FRAME = 262 ∧ Config.NEED_MAX = 258
      ∧ Config.BUF_CAP = Config.MAX_FRAME := by decide

/-! ## Witnesses: concrete states and operands that meet the hypotheses of the statements -/

/-- The empty frame E2 and its last byte withheld. -/
def shortest : List Byte := [0x02, 0x00, 0x00, 0x00, 0x03, 0x05, 0x0D]

theorem witness_ResetClearsParserFromEveryState :
    opField (⟨0x0FF, OperandPort.idle⟩ : Request).cw = 0 := by decide

theorem witness_DecodeEncodeAgree :
    decode ⟨0x1FF, OperandPort.idle⟩ = .ok (.push 0xFF) ∧ opField 0x1FF = 1
      ∧ decode ⟨0x4FF, ⟨1, 2, 1, [3]⟩⟩ = .ok (.encode 1 2 1 [3]) ∧ opField 0x4FF = 4 :=
  ⟨rfl, rfl, rfl, rfl⟩

theorem witness_DecodeSelectsTableRow : (⟨"ENCODE", 0x400, 0x700⟩ : OpRow) ∈ opTable := by decide

theorem witness_DinIgnoredOutsidePush : (0 : OpCode) ≠ 1 ∧ (2 : OpCode) ≠ 1 ∧ (7 : OpCode) ≠ 1 := by decide

theorem witness_ReservedOperationCodeEndsInIllegalOp :
    (done.withFetchWord 16 0x500).queue = [⟨0x500, OperandPort.idle⟩] ∧ 5 ≤ (opField 0x500).toNat
      ∧ (done.withFetchWord 16 0x7FF).queue = [⟨0x7FF, OperandPort.idle⟩]
      ∧ 5 ≤ (opField 0x7FF).toNat := by decide

theorem witness_StepRunsDecodedOperation :
    (State.reset.withFetchWord 16 0x102).queue = [⟨0x102, OperandPort.idle⟩]
      ∧ decode ⟨0x102, OperandPort.idle⟩ = .ok (.push 0x02) ∧ State.reset.queue = [] :=
  ⟨rfl, rfl, rfl⟩

theorem witness_EncodeBuildsWireFrame :
    opField 0x4FF = 4 ∧ (filled 255 0xFF).length ≤ 255
      ∧ ([] : List Byte).length ≤ 255 ∧ 255 < 256 :=
  ⟨by decide, (filled_length _ _).le, by decide, by decide⟩

theorem witness_EncodeChecksumCoversEmittedBytes :
    (filled 255 0x00).length ≤ 255 := (filled_length _ _).le

theorem witness_PayloadTooLargeExactlyForLongPayload :
    exec (.encode 0 0 256 []) State.reset = .next (raiseError .payloadTooLarge State.reset)
      ∧ (raiseError .payloadTooLarge State.reset).endedWith .payloadTooLarge
      ∧ decode ⟨0b10100000000, OperandPort.idle⟩ = .error (.reservedOp 5)
      ∧ (∃ t, step (issueFirst ⟨0b10100000000, OperandPort.idle⟩ State.reset) = .next t) :=
  ⟨rfl, ⟨_, rfl, rfl⟩, rfl, _, rfl⟩

theorem witness_EncodeResultIsValidFrame :
    (filled 255 0x02).length ≤ 255 ∧ ([] : List Byte).length ≤ 255 :=
  ⟨(filled_length _ _).le, by decide⟩

theorem witness_EncodeCommutesWithEveryOperation :
    exec (.encode 0 0 0 []) done = .next (deliver false (.bytes shortest) done)
      ∧ exec .take done = .next (deliver false (.fields ⟨0x00, 0x4F, [0x90]⟩) (resync done)) :=
  ⟨rfl, rfl⟩

theorem witness_EncodeOnContradictoryPort :
    255 ≤ 255 ∧ 255 ≤ (filled 256 0x00).length
      ∧ (filled 254 0x00).length < 255 := by
  simp [filled_length]

theorem witness_Sum8AddsModulo256 :
    [(0xFF : Byte), 0x01].Perm [0x01, 0xFF] ∧ (filled 255 0xFF).length ≤ 255 :=
  ⟨by decide, (filled_length _ _).le⟩

theorem witness_ReorderedBytesKeepFrameValid :
    validFrame (0x02 :: 0x00 :: 0x4F :: [0x01, 0x90, 0x03, 0xE5, 0x0D]) = true
      ∧ [(0x90 : Byte), 0x91].Perm [0x91, 0x90]
      ∧ validFrame ([0x02, 0x00, 0x4F, 0x02] ++ [0x90, 0x91] ++ [0x03, 0x77, 0x0D]) = true := by decide

theorem witness_PushWhileSeeking :
    State.reset.st = .seekingStart ∧ (0x02 : Byte) = 0x02 ∧ (0x03 : Byte) ≠ 0x02 := by decide

theorem witness_PushInHeader :
    (sample .readingHeader 3 [0x02]).Inv ∧ 1 < 3
      ∧ (sample .readingHeader 2 [0x02, 0x00]).Inv ∧ 1 < 2
      ∧ (sample .readingHeader 1 [0x02, 0x00, 0x4F]).Inv :=
  ⟨by decide, by decide, by decide, by decide, by decide⟩

theorem witness_PushAccumulatesPayload :
    (sample .readingPayloadAndFooter 2 (vf.take 6)).Inv ∧ 1 < 2
      ∧ (sample .readingPayloadAndFooter 258 [0x02, 0x00, 0x10, 0xFF]).Inv ∧ 1 < 258 := by decide

theorem witness_PushCompletesValidFrame :
    (sample .readingPayloadAndFooter 1 (shortest.take 6)).Inv
      ∧ tailOk (Memory.bytes (sample .readingPayloadAndFooter 1 (shortest.take 6)).buf ++ [0x0D]) = true
      ∧ 4 ≤ (opField 0b10000000000).toNat
      ∧ (∃ u, step (issueFirst ⟨0b10000000000, OperandPort.idle⟩ done) = .next u) :=
  ⟨by decide, by decide, by decide, _, rfl⟩

theorem witness_PushResynchronisesOnMalformedFrame :
    (sample .readingPayloadAndFooter 1 (shortest.take 6)).Inv
      ∧ tailOk (Memory.bytes (sample .readingPayloadAndFooter 1 (shortest.take 6)).buf ++ [0x02]) = false := by
  decide

theorem witness_PushInCompleteLosesFrame : done.st = .complete := by decide

theorem witness_PushNeverEndsInError :
    State.reset.Inv ∧ (sample .readingHeader 3 [0x02]).Inv
      ∧ (sample .readingPayloadAndFooter 4 (vf.take 4)).Inv ∧ done.Inv :=
  ⟨by decide, by decide, by decide, by decide⟩

theorem witness_FrameReadyExactlyOnCompletingPush :
    done.Inv ∧ exec .takeRaw done = .next (deliver false (.bytes vf) (resync done)) :=
  ⟨by decide, rfl⟩

theorem witness_TailCheckIsFrameValidity :
    (sample .readingPayloadAndFooter 1 (vf.take 7)).Inv := by decide

/-- One witness for each clause of the push frame. -/
theorem witness_PushMemoryFrame :
    State.reset.Inv ∧ (exec (.push 0x03) State.reset = .next (deliver false .none State.reset))
      ∧ exec (.push 0x02) State.reset = .next (deliver false .none (startFrame State.reset))
      ∧ (sample .readingHeader 3 [0x02]).Inv
      ∧ (nextOf (exec (.push 0x00) (sample .readingHeader 3 [0x02]))).map (·.st) = some .readingHeader
      ∧ (sample .readingPayloadAndFooter 1 (vf.take 7)).Inv
      ∧ (nextOf (exec (.push 0x0D) (sample .readingPayloadAndFooter 1 (vf.take 7)))).map (·.st)
          = some .complete
      ∧ (nextOf (exec (.push 0x0A) (sample .readingPayloadAndFooter 1 (vf.take 7)))).map (·.st)
          = some .seekingStart
      ∧ done.Inv ∧ exec (.push 0x02) done = .next (pushComplete Config.completePush 0x02 done) :=
  ⟨by decide, rfl, rfl, by decide, by decide, by decide, by decide, by decide, by decide, rfl⟩

theorem witness_CompletePushParameterUnobservable :
    callerDuty (.push 0x02) (sample .readingHeader 3 [0x02]) = true := by decide

theorem witness_TakeReturnsFields : done.Inv ∧ done.st = .complete := by decide

theorem witness_TakeRawReturnsFrame :
    (sample .complete 0 shortest).Inv ∧ (sample .complete 0 shortest).st = .complete := by decide

theorem witness_ExtractionWithoutFrameRaisesNotReady :
    State.reset.st ≠ .complete ∧ (sample .readingHeader 2 [0x02, 0x00]).st ≠ .complete
      ∧ (sample .readingPayloadAndFooter 1 (vf.take 7)).st ≠ .complete := by decide

theorem witness_NotReadyExactlyWithoutFrame :
    exec .take State.reset = .next (raiseError .notReady State.reset)
      ∧ (raiseError .notReady State.reset).endedWith .notReady :=
  ⟨rfl, _, rfl, rfl⟩

theorem witness_SecondExtractionRaisesNotReady :
    exec .takeRaw done = .next (deliver false (.bytes vf) (resync done))
      ∧ (deliver false (.bytes vf) (resync done)).endedWith .ok :=
  ⟨rfl, _, rfl, rfl⟩

theorem witness_FieldsDetermineFrame : validFrame shortest = true ∧ validFrame vf = true := by decide

theorem witness_ViewsShowCompletedFrame :
    done.Inv ∧ done.st = .complete ∧ State.reset.st ≠ .complete := by decide

theorem witness_FailedOperationWritesNothing :
    exec .takeRaw State.reset = .next (raiseError .notReady State.reset)
      ∧ (raiseError .notReady State.reset).endedWith .notReady ∧ ErrCode.notReady ≠ .ok :=
  ⟨rfl, ⟨_, rfl, rfl⟩, by decide⟩

theorem witness_MarkIsSticky :
    exec .take { State.reset with faultMark := true }
        = .next (raiseError .notReady { State.reset with faultMark := true })
      ∧ (issueFirst ⟨0b10100000000, OperandPort.idle⟩ State.reset).queue ≠ []
      ∧ step (issueFirst ⟨0b10100000000, OperandPort.idle⟩ State.reset)
          = .next (raiseError .illegalOp State.reset)
      ∧ State.reset.queue = [] ∧ step State.reset = .next State.reset :=
  ⟨rfl, by simp [issueFirst], rfl, rfl, rfl⟩

theorem witness_OtherOperationsMemoryFrame :
    (∀ b, Instr.take ≠ .push b)
      ∧ exec .take done = .next (deliver false (.fields ⟨0x00, 0x4F, [0x90]⟩) (resync done))
      ∧ exec .take State.reset = .next (raiseError .notReady State.reset) :=
  ⟨by intro b; simp, rfl, rfl⟩

theorem witness_StepKeepsInvariant :
    (done.withFetchWord 16 0x200).Inv
      ∧ step (done.withFetchWord 16 0x200)
          = .next (deliver false (.fields ⟨0x00, 0x4F, [0x90]⟩) (resync done)) :=
  ⟨by decide, rfl⟩

theorem witness_StepKeepsBufferCanonical :
    Memory.wf (done.withFetchWord 16 0x500).buf
      ∧ step (done.withFetchWord 16 0x500) = .next (raiseError .illegalOp done) :=
  ⟨by decide, rfl⟩

theorem witness_StepNeverStops :
    (done.withFetchWord 16 0x1FF).Inv ∧ (done.withFetchWord 16 0x1FF).queueWellFormed := by decide

theorem witness_InvariantBoundsCounters :
    State.reset.Inv ∧ (sample .readingHeader 3 [0x02]).Inv
      ∧ (sample .readingPayloadAndFooter 258 [0x02, 0x00, 0x10, 0xFF]).Inv ∧ done.Inv :=
  ⟨by decide, by decide, by decide, by decide⟩

theorem witness_MeaningsFollowTransitionTable :
    done.Inv ∧ ∀ a c n p, Instr.push 0x02 ≠ .encode a c n p :=
  ⟨by decide, by intro a c n p; simp⟩

theorem witness_ValidFrameDetectedAfterGarbage :
    (0x02 : Byte) ∉ [(0xAA : Byte), 0xBB] ∧ (0x02 : Byte) ∉ ([] : List Byte)
      ∧ validFrame vf = true ∧ validFrame shortest = true ∧ State.reset.parserReset := by decide

/-- Vector T4. -/
def badTerminator : List Byte := [0x02, 0x00, 0x4F, 0x01, 0x90, 0x03, 0xE5, 0x0A]

theorem witness_MalformedFrameDroppedInSilence :
    badTerminator[0]? = some 0x02 ∧ badTerminator[3]? = some 0x01
      ∧ badTerminator.length = 7 + (0x01 : Byte).toNat ∧ tailOk badTerminator = false
      ∧ State.reset.parserReset := by decide

theorem witness_WireRoundTrip :
    (filled 255 0x02).length ≤ 255 ∧ ([] : List Byte).length ≤ 255 :=
  ⟨(filled_length _ _).le, by decide⟩

theorem witness_ParserWaitsForNeededBytes :
    (sample .readingHeader 3 [0x02]).Inv ∧ [(0x02 : Byte), 0x02].length < 3
      ∧ (sample .readingPayloadAndFooter 4 (vf.take 4)).Inv
      ∧ [(0x02 : Byte), 0x02, 0x02].length < 4 := by decide

/-- Two parsers that differ in the model's own fields alone, and an extraction that fails in mid-frame. -/
theorem witness_EqualParsersBehaveAlike :
    State.sameParser (sample .readingHeader 3 [0x02]) (raiseError .notReady (sample .readingHeader 3 [0x02]))
      ∧ (performAll [.push 0x00] (sample .readingHeader 3 [0x02])).isSome
      ∧ (pushN [0x00] (sample .readingHeader 3 [0x02])).isSome
      ∧ exec .take (sample .readingHeader 3 [0x02])
          = .next (raiseError .notReady (sample .readingHeader 3 [0x02]))
      ∧ (raiseError .notReady (sample .readingHeader 3 [0x02])).endedWith .notReady :=
  ⟨by decide, by decide, by decide, rfl, _, rfl, rfl⟩

theorem witness_DutifulOperationSucceeds :
    done.Inv ∧ Instr.wellFormed .take = true ∧ callerDuty .take done = true
      ∧ Instr.wellFormed (.encode 0 0 255 (filled 255 0)) = true
      ∧ callerDuty (.encode 0 0 255 (filled 255 0)) done = true :=
  ⟨by decide, by decide, by decide, by simp [Instr.wellFormed, filled_length], by decide⟩

/-- Vector V7: no retries, one send. -/
theorem witness_TransactSendsOncePerAttempt :
    (transact vf 0 ⟨[.timeout], [.sent]⟩).result = .timeout
      ∧ (transact vf 0 ⟨[.timeout], [.sent]⟩).sent = [vf] := by decide

/-- The Transport of vector V6, with one byte of a following frame. -/
def lateReply : Transport :=
  { received := .timeout :: .timeout :: (shortest ++ [0x02]).map Received.byte
    sends := [.sent, .sent, .sent] }

/-- Vector V6: two timeouts, then the reply, and three sends; the byte received after it stays. -/
theorem test_transact_two_retries :
    (transact vf 2 lateReply).result = .reply ⟨0x00, [], shortest⟩
      ∧ (transact vf 2 lateReply).sent = [vf, vf, vf]
      ∧ (transact vf 2 lateReply).net = { received := [.byte 0x02], sends := [] } := by decide

theorem witness_ReplyMatchesRawBytes :
    (receiveOnly ⟨shortest.map .byte, []⟩).result = .reply ⟨0x00, [], shortest⟩
      ∧ (transact vf 0 ⟨shortest.map .byte, [.sent]⟩).result = .reply ⟨0x00, [], shortest⟩ := by decide

theorem witness_ReplyLeavesRestInTransport :
    State.reset.parserReset
      ∧ (Call.receiveOnly.run State.reset
          { received := (shortest ++ [0x02]).map Received.byte, sends := [] }).result
          = .reply ⟨0x00, [], shortest⟩
      ∧ ((Call.transact vf 0).run State.reset ⟨shortest.map .byte, [.sent]⟩).result
          = .reply ⟨0x00, [], shortest⟩ := by decide

/-- 70_reset_and_hazards.md R168: a call gives up in mid-frame, and the caller's `RESET` lets the next one on
the same parser be answered. -/
theorem test_reset_between_calls :
    (runCalls [.receiveOnly, .receiveOnly]
        { design := .longLived, parser := State.reset,
          net := { received := .byte 0x02 :: .timeout :: shortest.map Received.byte, sends := [] } }).1.map
        Exchange.result
      = [.timeout, .reply ⟨0x00, [], shortest⟩] := by decide

theorem witness_ParserDesignsAgree : State.reset.parserReset := by decide

theorem witness_ConsecutiveCallsReturnConsecutiveFrames :
    State.reset.parserReset ∧ ∀ f ∈ [shortest, vf], validFrame f = true := by decide

theorem witness_ContinuousStreamYieldsItsFrames :
    State.reset.parserReset
      ∧ ∀ x ∈ [([(0xAA : Byte), 0xBB], shortest), ([], vf)], 0x02 ∉ x.1 ∧ validFrame x.2 = true := by decide

end Sys2Proof.Tests
end

section
/-! The result triple of an operation that answers (00_scope.md R10), and the flag `frame_ready` in it
(10_state.md R26): one lemma for each path of `PUSH`, one for `PUSH` as a whole, one for the other four
operations. -/

namespace Sys2Proof.Machine

/-- The completing push whose validation passes (41_stream_parser.md R95): one byte is still needed, and with
it the buffered bytes pass the tail check. -/
def completesFrame (b : Byte) (s : State) : Bool :=
  decide (s.st = .readingPayloadAndFooter) && decide (s.need = 1) && tailOk (Memory.bytes s.buf ++ [b])

theorem completesFrame_iff {b : Byte} {s : State} :
    completesFrame b s = true ↔
      s.st = .readingPayloadAndFooter ∧ s.need = 1 ∧ tailOk (Memory.bytes s.buf ++ [b]) = true := by
  simp [completesFrame, and_assoc]

/-- In every other mode no byte completes a frame. -/
theorem completesFrame_of_st_ne {s : State} (h : s.st ≠ .readingPayloadAndFooter) (b : Byte) :
    completesFrame b s = false := by
  simp [completesFrame, h]

/-- While more than the pushed byte is needed, it completes no frame. -/
theorem completesFrame_of_need_ne {s : State} (h : s.need ≠ 1) (b : Byte) :
    completesFrame b s = false := by
  simp [completesFrame, h]

/-- At the completing push the tail check alone decides. -/
theorem completesFrame_of_need_one {s : State} (hst : s.st = .readingPayloadAndFooter)
    (hneed : s.need = 1) (b : Byte) :
    completesFrame b s = tailOk (Memory.bytes s.buf ++ [b]) := by
  simp [completesFrame, hst, hneed]

/-- A header byte reports no frame, the length byte included (41_stream_parser.md R93). -/
theorem pushHeader_result {b : Byte} {s t : State} (h : pushHeader b s = .ok t) :
    t.result = some ⟨.ok, false, .none⟩ := by
  obtain ⟨-, -, ⟨-, rfl⟩ | ⟨-, len, -, rfl⟩⟩ := pushHeader_eq_ok.1 h
  · rfl
  · rfl

/-- The completing push reports its tail check (41_stream_parser.md R95, R96). -/
theorem completeFrame_result {s t : State} (h : completeFrame s = .ok t) :
    t.result = some ⟨.ok, tailOk (Memory.bytes s.buf), .none⟩ := by
  obtain ⟨-, ⟨htail, rfl⟩ | ⟨htail, rfl⟩⟩ := completeFrame_eq_ok.1 h
  · simp [htail]
  · simp [htail]

/-- A byte of the payload or the footer reports a frame when it completes one (41_stream_parser.md R94 to R96). -/
theorem pushPayload_result {b : Byte} {s t : State} (hst : s.st = .readingPayloadAndFooter)
    (h : pushPayload b s = .ok t) : t.result = some ⟨.ok, completesFrame b s, .none⟩ := by
  obtain ⟨-, -, ⟨hneed, rfl⟩ | ⟨hneed, hcomplete⟩⟩ := pushPayload_eq_ok.1 h
  · simp [completesFrame_of_need_ne hneed]
  · simp [completeFrame_result hcomplete, completesFrame_of_need_one hst hneed]

/-- Under either setting of the open parameter a byte in `Complete` reports no frame (41_stream_parser.md R97). -/
theorem pushComplete_result (p : CompletePush) (b : Byte) (s : State) :
    (pushComplete p b s).result = some ⟨.ok, false, .none⟩ := by
  cases p
  · rfl
  · rfl

/-- The result triple of a `PUSH` that answers: `OK`, no data, and `frame_ready` exactly when the byte completes
a frame (41_stream_parser.md R91). -/
theorem exec_push_result {b : Byte} {s t : State} (h : exec (.push b) s = .next t) :
    t.result = some ⟨.ok, completesFrame b s, .none⟩ := by
  rcases execPushWith_eq_next.1 h with ⟨hst, rfl⟩ | ⟨hst, hpush⟩ | ⟨hst, hpush⟩ | ⟨hst, rfl⟩
  case inl => simp [completesFrame_of_st_ne, hst]
  case inr.inl => simp [completesFrame_of_st_ne, hst, pushHeader_result hpush]
  case inr.inr.inl => exact pushPayload_result hst hpush
  case inr.inr.inr => simp [completesFrame_of_st_ne, hst, pushComplete_result]

/-- No operation but `PUSH` reports a frame, whether it succeeds or ends in an error (10_state.md R26). -/
theorem exec_result_of_not_push {i : Instr} {s t : State} (hi : ∀ b, i ≠ .push b)
    (h : exec i s = .next t) : ∃ e d, t.result = some ⟨e, false, d⟩ := by
  cases i with
  | reset =>
    obtain rfl : deliver false .none (resync s) = t := by simpa [exec, execReset] using h
    exact ⟨_, _, rfl⟩
  | push b => exact absurd rfl (hi b)
  | take =>
    obtain ⟨-, f, -, rfl⟩ | ⟨-, rfl⟩ := execTake_eq_next.1 h
    · exact ⟨_, _, rfl⟩
    · exact ⟨_, _, rfl⟩
  | takeRaw =>
    obtain ⟨-, rfl⟩ | ⟨-, rfl⟩ := execTakeRaw_eq_next.1 h
    · exact ⟨_, _, rfl⟩
    · exact ⟨_, _, rfl⟩
  | encode addr cmd plen pdata =>
    obtain ⟨-, rfl⟩ | ⟨-, -, rfl⟩ := execEncode_eq_next.1 h
    · exact ⟨_, _, rfl⟩
    · exact ⟨_, _, rfl⟩

/-- Settles O24: a `PUSH` reports `completesFrame`, and no other operation reports a frame. -/
theorem frameReadyExactlyOnCompletingPush : Obligations.FrameReadyExactlyOnCompletingPush := by
  unfold Obligations.FrameReadyExactlyOnCompletingPush
  intro i s t _ h
  by_cases hi : ∃ b, i = .push b
  · obtain ⟨b, rfl⟩ := hi
    refine ⟨_, exec_push_result h, ?_⟩
    simp [completesFrame_iff]
  · have hne : ∀ b, i ≠ .push b := fun b hb => hi ⟨b, hb⟩
    obtain ⟨e, d, hresult⟩ := exec_result_of_not_push hne h
    exact ⟨_, hresult, by simp [hne]⟩

end Sys2Proof.Machine
end

section
/-! `ENCODE` (40_frame_builder.md): where the bytes of a built frame stand, what their sum is, and the two answers
of the operation. -/

namespace Sys2Proof.Machine

@[simp] theorem framePrefix_length (addr cmd : Byte) (plen : Nat) (payload : List Byte) :
    (framePrefix addr cmd plen payload).length = 5 + payload.length := by
  simp only [framePrefix, List.length_append, List.length_cons, List.length_nil]
  omega

/-- The bytes before the checksum are the prefix from `STX` to `ETX` (40_frame_builder.md R81). -/
theorem buildFrame_take (addr cmd : Byte) (plen : Nat) (payload : List Byte) :
    (buildFrame addr cmd plen payload).take (5 + payload.length) = framePrefix addr cmd plen payload :=
  List.take_left' (framePrefix_length addr cmd plen payload)

/-- The byte after that prefix is its `sum8` (40_frame_builder.md R81). -/
theorem buildFrame_getElem?_sum (addr cmd : Byte) (plen : Nat) (payload : List Byte) :
    (buildFrame addr cmd plen payload)[5 + payload.length]?
      = some (sum8 (framePrefix addr cmd plen payload)) := by
  have hlen := framePrefix_length addr cmd plen payload
  rw [buildFrame, List.getElem?_append_right hlen.le, hlen, Nat.sub_self]
  rfl

/-- The length byte counts as the length itself: no payload that `ENCODE` accepts wraps it
(30_encoding.md R64, 40_frame_builder.md R83). -/
theorem byteSum_framePrefix (addr cmd : Byte) {plen : Nat} (hlen : plen ≤ 255) (payload : List Byte) :
    byteSum (framePrefix addr cmd plen payload)
      = 2 + addr.toNat + cmd.toNat + plen + byteSum payload + 3 := by
  have hbyte : (BitVec.ofNat 8 plen).toNat = plen := Nat.mod_eq_of_lt (by omega)
  have hstx : Config.STX.toNat = 2 := rfl
  have hetx : Config.ETX.toNat = 3 := rfl
  simp only [framePrefix, byteSum_append, byteSum_cons, byteSum_nil, hbyte, hstx, hetx]
  omega

/-- The layout of 40_frame_builder.md R80, with the checksum as the sum of the fields. -/
theorem buildFrame_eq_wire_bytes (addr cmd : Byte) {plen : Nat} (hlen : plen ≤ 255) (payload : List Byte) :
    buildFrame addr cmd plen payload
      = [0x02, addr, cmd, BitVec.ofNat 8 plen] ++ payload
          ++ [0x03, BitVec.ofNat 8 (2 + addr.toNat + cmd.toNat + plen + byteSum payload + 3), 0x0D] := by
  rw [buildFrame, sum8, byteSum_framePrefix addr cmd hlen payload]
  simp [framePrefix, Config.STX, Config.ETX, Config.CR]

/-- `PayloadTooLarge` is an error for the caller and leaves the model's sticky mark alone (log 5). -/
theorem raiseError_payloadTooLarge (s : State) :
    raiseError .payloadTooLarge s = { s with result := some ⟨.payloadTooLarge, false, .none⟩ } := by
  simp [raiseError, ErrCode.marks]

/-- `ENCODE` of a payload that fits the length byte returns the built frame (40_frame_builder.md R80). -/
theorem exec_encode_of_le (addr cmd : Byte) {pdata : List Byte} (hlen : pdata.length ≤ 255) (s : State) :
    exec (.encode addr cmd pdata.length pdata) s
      = .next (deliver false (.bytes (buildFrame addr cmd pdata.length pdata)) s) :=
  execEncode_eq_next.2 (.inr ⟨hlen, le_rfl, by rw [List.take_length]⟩)

/-- `ENCODE` of a longer payload raises `PayloadTooLarge`, whatever the port holds (40_frame_builder.md R83). -/
theorem exec_encode_of_lt (addr cmd : Byte) {plen : Nat} (hlen : 255 < plen) (pdata : List Byte) (s : State) :
    exec (.encode addr cmd plen pdata) s = .next (raiseError .payloadTooLarge s) :=
  execEncode_eq_next.2 (.inl ⟨hlen, rfl⟩)

/-- Operation code 100 decodes to `ENCODE` with the operands of the port (30_encoding.md R67, R68). -/
theorem decode_of_opField_eq_four {r : Request} (hop : opField r.cw = 4) :
    decode r = .ok (.encode r.port.addr r.port.cmd r.port.plen r.port.pdata) := by
  simp [decode, hop]

/-- Settles O9: the decoder's row for code 100, then the two answers of `ENCODE` with their bytes written out. -/
theorem encodeBuildsWireFrame : Obligations.EncodeBuildsWireFrame := by
  unfold Obligations.EncodeBuildsWireFrame
  refine ⟨fun r hop => decode_of_opField_eq_four hop, ?built, ?refused⟩
  case built =>
    intro addr cmd pdata s hlen
    rw [exec_encode_of_le addr cmd hlen, buildFrame_eq_wire_bytes addr cmd hlen]
    rfl
  case refused =>
    intro addr cmd plen pdata s hlen
    rw [exec_encode_of_lt addr cmd hlen, raiseError_payloadTooLarge]

/-- Settles O10: in the returned frame the bytes before the checksum are the prefix over which it was computed. -/
theorem encodeChecksumCoversEmittedBytes : Obligations.EncodeChecksumCoversEmittedBytes := by
  unfold Obligations.EncodeChecksumCoversEmittedBytes
  intro addr cmd pdata s hlen
  refine ⟨_, _, exec_encode_of_le addr cmd hlen s, deliver_result _ _ _, ?_⟩
  rw [buildFrame_take, buildFrame_getElem?_sum]

end Sys2Proof.Machine
end

section
/-! `RESET` (41_stream_parser.md R90), and `PUSH` in `SeekingStart` (R92): the two meanings that answer in every
state, with no demand on the buffer. -/

namespace Sys2Proof.Machine

/-- Operation code 000 decodes to `RESET`, whatever `din` is (30_encoding.md R67, R68). -/
theorem decode_of_opField_eq_zero {r : Request} (hop : opField r.cw = 0) : decode r = .ok .reset := by
  simp [decode, hop]

theorem exec_reset (s : State) : exec .reset s = .next (deliver false .none (resync s)) := rfl

/-- Settles O1: the decoder's row for code 000, then the answer of `RESET` with its fields written out. -/
theorem resetClearsParserFromEveryState : Obligations.ResetClearsParserFromEveryState := by
  unfold Obligations.ResetClearsParserFromEveryState
  refine ⟨fun r hop => decode_of_opField_eq_zero hop, ?cleared⟩
  case cleared =>
    intro s
    rw [exec_reset]
    rfl

theorem exec_push_of_seeking {s : State} (hst : s.st = .seekingStart) (b : Byte) :
    exec (.push b) s = .next (deliver false .none (seek b s)) :=
  execPushWith_eq_next.2 (.inl ⟨hst, rfl⟩)

/-- Settles O17: the two cases of `seek`. -/
theorem pushWhileSeeking : Obligations.PushWhileSeeking := by
  unfold Obligations.PushWhileSeeking
  intro b s hst
  rw [exec_push_of_seeking hst]
  by_cases hb : b = 0x02
  · rw [if_pos hb, hb, seek_stx]
    rfl
  · rw [if_neg hb, seek_of_ne hb]
    rfl

end Sys2Proof.Machine
end

section
/-! What the invariant of 10_state.md R30 says while a frame is read: how many bytes are buffered, that the buffer
space has room for one more, and that `STX` and the length byte stand at their places. -/

namespace Sys2Proof.Machine

/-- Below `blen` every address holds a value (10_state.md R23). -/
theorem Memory.read_isSome_of_lt {m : Memory} (h : Memory.wf m) {a : Nat} (ha : a < Memory.blen m) :
    (Memory.read m a).isSome := by
  rw [Option.isSome_iff_ne_none, ne_eq, Memory.read_eq_none_iff h]
  omega

theorem lenByte_le (m : Memory) : lenByte m ≤ 255 :=
  Nat.le_of_lt_succ (BitVec.isLt _)

theorem lenByte_of_read {m : Memory} {len : Byte} (h : Memory.read m 3 = some len) :
    lenByte m = len.toNat := by
  simp [lenByte, h]

/-- The two modes in which `PUSH` accumulates its byte (41_stream_parser.md R93, R94). -/
def State.reading (s : State) : Prop := s.st = .readingHeader ∨ s.st = .readingPayloadAndFooter

/-- In `ReadingHeader`, the bytes buffered and the bytes needed make up the header. -/
theorem State.Inv.blen_add_need_of_header {s : State} (h : s.Inv) (hst : s.st = .readingHeader) :
    Memory.blen s.buf + s.need = 4 := by
  obtain ⟨-, -, hheader, -, -⟩ := h
  obtain ⟨-, hle, hneed, -⟩ := hheader hst
  omega

/-- In `ReadingPayloadAndFooter`, the bytes buffered and the bytes needed make up the frame that the length byte
announces. -/
theorem State.Inv.blen_add_need_of_payload {s : State} (h : s.Inv)
    (hst : s.st = .readingPayloadAndFooter) : Memory.blen s.buf + s.need = 7 + lenByte s.buf := by
  obtain ⟨-, -, -, hpayload, -⟩ := h
  obtain ⟨-, hle, hneed, -⟩ := hpayload hst
  omega

/-- In `ReadingPayloadAndFooter` the length byte is buffered (10_state.md R30). -/
theorem State.Inv.read_len_of_payload {s : State} (h : s.Inv) (hst : s.st = .readingPayloadAndFooter) :
    ∃ len, Memory.read s.buf 3 = some len := by
  obtain ⟨hwf, -, -, hpayload, -⟩ := h
  obtain ⟨hge, -⟩ := hpayload hst
  exact Option.isSome_iff_exists.1 (Memory.read_isSome_of_lt hwf (by omega))

theorem State.Inv.read_stx_of_payload {s : State} (h : s.Inv) (hst : s.st = .readingPayloadAndFooter) :
    Memory.read s.buf 0 = some 0x02 := by
  obtain ⟨-, -, -, hpayload, -⟩ := h
  obtain ⟨-, -, -, hstx⟩ := hpayload hst
  exact hstx

/-- While a frame is read the buffer space has room for one more byte: the longest frame fills it
(20_memory.md R40). -/
theorem State.Inv.blen_lt_cap {s : State} (h : s.Inv) (hread : s.reading) :
    Memory.blen s.buf < Config.BUF_CAP := by
  have hcap : Config.BUF_CAP = 262 := rfl
  obtain ⟨-, -, hheader, hpayload, -⟩ := h
  rcases hread with hst | hst
  · obtain ⟨-, hle, -⟩ := hheader hst
    omega
  · obtain ⟨-, hle, -⟩ := hpayload hst
    have := lenByte_le s.buf
    omega

end Sys2Proof.Machine
end

section
/-! The buffer with one more byte, while a frame is read (41_stream_parser.md R93, R94): its canonical form, the header
in it, and its size at the completing push. -/

namespace Sys2Proof.Machine

/-- Accumulating a byte keeps the buffer's canonical form while a frame is read (20_memory.md R40). -/
theorem wf_accumulated {s : State} (hinv : s.Inv) (hread : s.reading) (b : Byte) :
    Memory.wf (accumulated b s).buf := by
  have hroom := hinv.blen_lt_cap hread
  obtain ⟨hwf, -⟩ := hinv
  exact Memory.wf_concat hwf hroom b

/-- The byte that completes the header stands at address 3: it is the length byte. -/
theorem read_len_of_header_completed {s : State} (hinv : s.Inv) (hst : s.st = .readingHeader)
    (hneed : s.need = 1) (b : Byte) : Memory.read (accumulated b s).buf 3 = some b := by
  have hroom := hinv.blen_lt_cap (.inl hst)
  have hblen : Memory.blen s.buf = 3 := by
    have := hinv.blen_add_need_of_header hst
    omega
  obtain ⟨hwf, -⟩ := hinv
  simpa only [accumulated_buf, hblen] using Memory.read_concat_self hwf hroom b

/-- A byte that arrives behind the header leaves the header as it was read. -/
theorem read_accumulated_of_payload {s : State} (hinv : s.Inv) (hst : s.st = .readingPayloadAndFooter)
    (b : Byte) {a : Nat} (ha : a < 4) : Memory.read (accumulated b s).buf a = Memory.read s.buf a := by
  have hroom := hinv.blen_lt_cap (.inr hst)
  obtain ⟨hwf, -, -, hpayload, -⟩ := hinv
  obtain ⟨hge, -⟩ := hpayload hst
  exact Memory.read_concat_of_ne hwf hroom b (by omega)

/-- At the completing push the buffer holds, with the pushed byte, as many bytes as the length byte announces. -/
theorem blen_of_frame_completed {s : State} (hinv : s.Inv) (hst : s.st = .readingPayloadAndFooter)
    (hneed : s.need = 1) (b : Byte) {len : Byte} (hlen : Memory.read s.buf 3 = some len) :
    Memory.blen (accumulated b s).buf = 7 + len.toNat := by
  have hsum := hinv.blen_add_need_of_payload hst
  have hbyte := lenByte_of_read hlen
  rw [accumulated_buf, Memory.blen_concat]
  omega

/-- The completing push never meets a buffer too short for the tail check (41_stream_parser.md R100). -/
theorem seven_le_blen_of_frame_completed {s : State} (hinv : s.Inv)
    (hst : s.st = .readingPayloadAndFooter) (hneed : s.need = 1) (b : Byte) :
    7 ≤ Memory.blen (accumulated b s).buf := by
  obtain ⟨len, hlen⟩ := hinv.read_len_of_payload hst
  have := blen_of_frame_completed hinv hst hneed b hlen
  omega

end Sys2Proof.Machine
end

section
/-! `PUSH` while a frame is read, one lemma for each answer (41_stream_parser.md R93 to R96): a byte before the last, the
length byte, the completing push of a malformed frame. The push that completes a valid frame follows below. -/

namespace Sys2Proof.Machine

/-- Before the last byte of the header or of the frame, a byte is accumulated and nothing else happens. -/
theorem exec_push_of_one_lt_need {s : State} (hinv : s.Inv) (hread : s.reading) (hneed : 1 < s.need)
    (b : Byte) : exec (.push b) s = .next (deliver false .none (accumulated b s)) := by
  have hroom := hinv.blen_lt_cap hread
  have hzero : s.need ≠ 0 := by omega
  have hone : s.need ≠ 1 := by omega
  refine execPushWith_eq_next.2 ?_
  rcases hread with hst | hst
  · exact .inr (.inl ⟨hst, pushHeader_eq_ok.2 ⟨hzero, hroom, .inl ⟨hone, rfl⟩⟩⟩)
  · exact .inr (.inr (.inl ⟨hst, pushPayload_eq_ok.2 ⟨hzero, hroom, .inl ⟨hone, rfl⟩⟩⟩))

/-- The byte that completes the header sets the counter for the rest of the frame (41_stream_parser.md R93). -/
theorem exec_push_of_header_completed {s : State} (hinv : s.Inv) (hst : s.st = .readingHeader)
    (hneed : s.need = 1) (b : Byte) :
    exec (.push b) s = .next (deliver false .none
      { accumulated b s with need := b.toNat + 3, st := .readingPayloadAndFooter }) := by
  have hzero : s.need ≠ 0 := by omega
  have hlen := read_len_of_header_completed hinv hst hneed b
  exact execPushWith_eq_next.2 (.inr (.inl ⟨hst,
    pushHeader_eq_ok.2 ⟨hzero, hinv.blen_lt_cap (.inl hst), .inr ⟨hneed, b, hlen, rfl⟩⟩⟩))

/-- Settles O18: the bytes before the last of the header, then the length byte. -/
theorem pushInHeader : Obligations.PushInHeader := by
  unfold Obligations.PushInHeader
  intro b s hinv hst
  refine ⟨fun hneed => ?before, fun hneed => ⟨?last, ?address⟩⟩
  case before =>
    rw [exec_push_of_one_lt_need hinv (.inl hst) hneed]
    rfl
  case last =>
    rw [exec_push_of_header_completed hinv hst hneed]
    rfl
  case address => exact read_len_of_header_completed hinv hst hneed b

/-- Settles O19: accumulating is all that happens before the last byte. -/
theorem pushAccumulatesPayload : Obligations.PushAccumulatesPayload := by
  unfold Obligations.PushAccumulatesPayload
  intro b s hinv hst hneed
  refine ⟨?accumulates, by omega⟩
  case accumulates =>
    rw [exec_push_of_one_lt_need hinv (.inr hst) hneed]
    rfl

/-- The completing push answers what the validation of the buffered bytes answers (41_stream_parser.md R95, R96). -/
theorem exec_push_of_completeFrame {s t : State} (hinv : s.Inv) (hst : s.st = .readingPayloadAndFooter)
    (hneed : s.need = 1) {b : Byte} (h : completeFrame (accumulated b s) = .ok t) :
    exec (.push b) s = .next t := by
  have hzero : s.need ≠ 0 := by omega
  exact execPushWith_eq_next.2 (.inr (.inr (.inl ⟨hst,
    pushPayload_eq_ok.2 ⟨hzero, hinv.blen_lt_cap (.inr hst), .inr ⟨hneed, h⟩⟩⟩)))

/-- The completing push whose tail check fails drops the frame (41_stream_parser.md R96). -/
theorem exec_push_of_not_tailOk {s : State} (hinv : s.Inv) (hst : s.st = .readingPayloadAndFooter)
    (hneed : s.need = 1) {b : Byte} (htail : tailOk (Memory.bytes s.buf ++ [b]) = false) :
    exec (.push b) s = .next (deliver false .none (resync (accumulated b s))) := by
  rw [← Memory.bytes_concat _ (Memory.blen s.buf)] at htail
  exact exec_push_of_completeFrame hinv hst hneed (completeFrame_eq_ok.2
    ⟨seven_le_blen_of_frame_completed hinv hst hneed b, .inr ⟨htail, rfl⟩⟩)

/-- Settles O21: the failed tail check, with the fields of the reset parser written out. -/
theorem pushResynchronisesOnMalformedFrame : Obligations.PushResynchronisesOnMalformedFrame := by
  unfold Obligations.PushResynchronisesOnMalformedFrame
  intro b s hinv hst hneed htail
  rw [exec_push_of_not_tailOk hinv hst hneed htail]
  rfl

end Sys2Proof.Machine
end

section
/-! The frame that a completing push keeps (41_stream_parser.md R95): its validity, its views (10_state.md R27), and the
command words whose step leaves it buffered. -/

namespace Sys2Proof.Machine

/-- The state after a completing push whose tail check passes (41_stream_parser.md R95). -/
def frameKept (b : Byte) (s : State) : State :=
  deliver true .none { accumulated b s with st := .complete }

@[simp] theorem frameKept_st (b : Byte) (s : State) : (frameKept b s).st = .complete := rfl
@[simp] theorem frameKept_buf (b : Byte) (s : State) :
    (frameKept b s).buf = s.buf ++ [(Memory.blen s.buf, b)] := rfl

/-- The completing push whose tail check passes keeps the frame (41_stream_parser.md R95). -/
theorem exec_push_of_tailOk {s : State} (hinv : s.Inv) (hst : s.st = .readingPayloadAndFooter)
    (hneed : s.need = 1) {b : Byte} (htail : tailOk (Memory.bytes s.buf ++ [b]) = true) :
    exec (.push b) s = .next (frameKept b s) := by
  rw [← Memory.bytes_concat _ (Memory.blen s.buf)] at htail
  exact exec_push_of_completeFrame hinv hst hneed (completeFrame_eq_ok.2
    ⟨seven_le_blen_of_frame_completed hinv hst hneed b, .inl ⟨htail, rfl⟩⟩)

/-- Of a sequence that starts with `STX` and has the length its length byte announces, the tail check decides
validity: the other three conditions of 30_encoding.md R62 hold already. -/
theorem validFrame_iff_tailOk {f : List Byte} {len : Byte} (hstx : f[0]? = some 0x02)
    (hlen : f[3]? = some len) (hsize : f.length = 7 + len.toNat) :
    validFrame f = true ↔ tailOk f = true := by
  rw [validFrame_iff, tailOk_iff]
  constructor
  · rintro ⟨-, -, -, hetx, hsum, hcr⟩
    exact ⟨hcr, hetx, hsum⟩
  · rintro ⟨hcr, hetx, hsum⟩
    exact ⟨by omega, hstx, ⟨len, hlen, hsize⟩, hetx, hsum, hcr⟩

/-- At the completing push the tail check says that the buffered bytes are a valid frame
(41_stream_parser.md R100). -/
theorem validFrame_iff_tailOk_of_frame_completed {s : State} (hinv : s.Inv)
    (hst : s.st = .readingPayloadAndFooter) (hneed : s.need = 1) (b : Byte) :
    validFrame (Memory.bytes s.buf ++ [b]) = true ↔ tailOk (Memory.bytes s.buf ++ [b]) = true := by
  obtain ⟨len, hlen⟩ := hinv.read_len_of_payload hst
  have hwf := wf_accumulated hinv (.inr hst) b
  have hread : ∀ a < 4, (Memory.bytes (accumulated b s).buf)[a]? = Memory.read s.buf a := fun a ha => by
    rw [← Memory.read_eq_bytes hwf, read_accumulated_of_payload hinv hst b ha]
  rw [← Memory.bytes_concat _ (Memory.blen s.buf)]
  refine validFrame_iff_tailOk (len := len) ?stx ?len ?size
  case stx => exact (hread 0 (by omega)).trans (hinv.read_stx_of_payload hst)
  case len => exact (hread 3 (by omega)).trans hlen
  case size => exact (Memory.bytes_length _).trans (blen_of_frame_completed hinv hst hneed b hlen)

/-- In `Complete` a view shows its value (10_state.md R27). -/
theorem whenComplete_of_complete {α : Type} {s : State} (hst : s.st = .complete) (v : Option α) :
    whenComplete s v = v := by
  simp [whenComplete, viewComplete, hst]

theorem viewRaw_of_complete {s : State} (hst : s.st = .complete) :
    viewRaw s = some (Memory.bytes s.buf) := whenComplete_of_complete hst _

theorem viewAddr_of_complete {s : State} (hst : s.st = .complete) :
    viewAddr s = Memory.read s.buf 1 := whenComplete_of_complete hst _

theorem viewCmd_of_complete {s : State} (hst : s.st = .complete) :
    viewCmd s = Memory.read s.buf 2 := whenComplete_of_complete hst _

theorem viewLen_of_complete {s : State} (hst : s.st = .complete) :
    viewLen s = Memory.read s.buf 3 := whenComplete_of_complete hst _

/-- The payload has a value whenever the length byte has one. -/
theorem viewPayload_isSome_of_complete {s : State} (hst : s.st = .complete) :
    (viewPayload s).isSome = (Memory.read s.buf 3).isSome := by
  rw [viewPayload, whenComplete_of_complete hst, Option.isSome_map]

/-- In `Complete` with a whole header buffered, every view of a field has a value. -/
theorem fieldViews_isSome {s : State} (hst : s.st = .complete) (hwf : Memory.wf s.buf)
    (hblen : 4 ≤ Memory.blen s.buf) :
    (viewAddr s).isSome ∧ (viewCmd s).isSome ∧ (viewLen s).isSome ∧ (viewPayload s).isSome := by
  have hread : ∀ a < 4, (Memory.read s.buf a).isSome := fun a ha =>
    Memory.read_isSome_of_lt hwf (ha.trans_le hblen)
  rw [viewAddr_of_complete hst, viewCmd_of_complete hst, viewLen_of_complete hst,
    viewPayload_isSome_of_complete hst]
  exact ⟨hread 1 (by omega), hread 2 (by omega), hread 3 (by omega), hread 3 (by omega)⟩

/-- The reserved operation codes are rejected (30_encoding.md R69). -/
theorem decode_of_four_lt_opField {r : Request} (hop : 4 < (opField r.cw).toNat) :
    decode r = .error (.reservedOp (opField r.cw)) := by
  unfold decode
  split
  case h_6 => rfl
  all_goals omega

/-- A step performs the operation to which the oldest issued word decodes (20_memory.md R50). -/
theorem step_of_decode_eq_ok {s : State} {r : Request} {rest : List Request} {i : Instr}
    (hqueue : s.queue = r :: rest) (hdecode : decode r = .ok i) :
    step s = exec i { s with queue := rest } := by
  have hfetch : fetch s = some (r, { s with queue := rest }) := fetch_eq_some.2 ⟨rest, hqueue, rfl⟩
  simp only [step, hfetch, hdecode]

/-- A step answers a rejected word with `IllegalOp` (60_exceptions.md R143). -/
theorem step_of_decode_eq_error {s : State} {r : Request} {rest : List Request} {e : DecodeError}
    (hqueue : s.queue = r :: rest) (hdecode : decode r = .error e) :
    step s = .next (raiseError .illegalOp { s with queue := rest }) := by
  have hfetch : fetch s = some (r, { s with queue := rest }) := fetch_eq_some.2 ⟨rest, hqueue, rfl⟩
  simp only [step, hfetch, hdecode, reject_eq]

/-- `ENCODE` neither reads nor writes the parser (40_frame_builder.md R84). -/
theorem exec_encode_sameParser {addr cmd : Byte} {plen : Nat} {pdata : List Byte} {s t : State}
    (h : exec (.encode addr cmd plen pdata) s = .next t) : s.sameParser t := by
  obtain ⟨-, rfl⟩ | ⟨-, -, rfl⟩ := execEncode_eq_next.1 h
  · exact ⟨rfl, rfl, rfl⟩
  · exact ⟨rfl, rfl, rfl⟩

/-- A command word with an operation code from 4 on, which is `ENCODE` or reserved, leaves the parser as it is
(40_frame_builder.md R84, 60_exceptions.md R148). -/
theorem sameParser_of_step_of_four_le_opField {s u : State} {r : Request} {rest : List Request}
    (hop : 4 ≤ (opField r.cw).toNat) (h : step { s with queue := r :: rest } = .next u) :
    s.sameParser u := by
  rcases hop.eq_or_lt with hfour | hreserved
  · have hcode : opField r.cw = 4 := BitVec.eq_of_toNat_eq hfour.symm
    rw [step_of_decode_eq_ok rfl (decode_of_opField_eq_four hcode)] at h
    have hkept := exec_encode_sameParser h
    exact hkept
  · rw [step_of_decode_eq_error rfl (decode_of_four_lt_opField hreserved)] at h
    obtain rfl := Host.Outcome.next.inj h
    exact ⟨rfl, rfl, rfl⟩

/-- Settles O20: the passed tail check, the validity and the views of the frame it keeps, and the operations that
leave it buffered. -/
theorem pushCompletesValidFrame : Obligations.PushCompletesValidFrame := by
  unfold Obligations.PushCompletesValidFrame
  intro b s hinv hst hneed htail
  obtain ⟨len, hlen⟩ := hinv.read_len_of_payload hst
  have hblen := blen_of_frame_completed hinv hst hneed b hlen
  have hvalid := (validFrame_iff_tailOk_of_frame_completed hinv hst hneed b).2 htail
  obtain ⟨haddr, hcmd, hlenView, hpayload⟩ :=
    fieldViews_isSome (frameKept_st b s) (wf_accumulated hinv (.inr hst) b)
      (le_trans (by omega) (seven_le_blen_of_frame_completed hinv hst hneed b))
  refine ⟨frameKept b s, exec_push_of_tailOk hinv hst hneed htail, ?state, ?valid, ⟨len, ?read, hblen⟩,
    viewRaw_of_complete (frameKept_st b s), haddr, hcmd, hlenView, hpayload, ?kept⟩
  case state =>
    have hzero : s.need - 1 = 0 := by omega
    rw [← hzero]
    rfl
  case valid => rwa [frameKept_buf, Memory.bytes_concat]
  case read => exact (read_accumulated_of_payload hinv hst b (by omega)).trans hlen
  case kept => exact fun r rest u hop hstep => sameParser_of_step_of_four_le_opField hop hstep

end Sys2Proof.Machine
end

section
/-! The error code with which an operation ends (60_exceptions.md R140): read off the operation and the parser's mode
alone, for all five operations at once. -/

namespace Sys2Proof.Machine

/-- The code of the latest result decides how the machine ended. -/
theorem State.endedWith_iff_of_result {s : State} {r : Result} (h : s.result = some r) (e : ErrCode) :
    s.endedWith e ↔ r.err = e := by
  simp [State.endedWith, h]

@[simp] theorem deliver_endedWith (ready : Bool) (d : Data) (s : State) (e : ErrCode) :
    (deliver ready d s).endedWith e ↔ .ok = e :=
  State.endedWith_iff_of_result (deliver_result ready d s) e

@[simp] theorem raiseError_endedWith (raised : ErrCode) (s : State) (e : ErrCode) :
    (raiseError raised s).endedWith e ↔ raised = e :=
  State.endedWith_iff_of_result (raiseError_result raised s) e

/-- The code of an operation that answers: an extraction looks at the parser's mode (60_exceptions.md R142), `ENCODE`
at the payload's length (R141), and `RESET` and `PUSH` raise nothing. -/
def errorCode (s : State) : Instr → ErrCode
  | .reset => .ok
  | .push _ => .ok
  | .take => if s.st = .complete then .ok else .notReady
  | .takeRaw => if s.st = .complete then .ok else .notReady
  | .encode _ _ plen _ => if 255 < plen then .payloadTooLarge else .ok

/-- An operation that answers ends with `errorCode` and with no other code. -/
theorem exec_endedWith_iff {i : Instr} {s t : State} (h : exec i s = .next t) (e : ErrCode) :
    t.endedWith e ↔ errorCode s i = e := by
  cases i with
  | reset =>
    obtain rfl := Host.Outcome.next.inj ((exec_reset s).symm.trans h)
    exact deliver_endedWith _ _ _ e
  | push b => exact State.endedWith_iff_of_result (exec_push_result h) e
  | take =>
    obtain ⟨hst, f, -, rfl⟩ | ⟨hst, rfl⟩ := execTake_eq_next.1 h
    · simp [errorCode, hst]
    · simp [errorCode, hst]
  | takeRaw =>
    obtain ⟨hst, rfl⟩ | ⟨hst, rfl⟩ := execTakeRaw_eq_next.1 h
    · simp [errorCode, hst]
    · simp [errorCode, hst]
  | encode addr cmd plen pdata =>
    obtain ⟨hlong, rfl⟩ | ⟨hfits, -, rfl⟩ := execEncode_eq_next.1 h
    · simp [errorCode, hlong]
    · simp [errorCode, hfits.not_gt]

/-- `ENCODE` of a longer payload is the only source of `PayloadTooLarge` (60_exceptions.md R141). -/
theorem errorCode_eq_payloadTooLarge_iff {s : State} {i : Instr} :
    errorCode s i = .payloadTooLarge ↔
      ∃ addr cmd plen pdata, i = .encode addr cmd plen pdata ∧ 255 < plen := by
  cases i with
  | reset => simp [errorCode]
  | push b => simp [errorCode]
  | take => by_cases hst : s.st = .complete <;> simp [errorCode, hst]
  | takeRaw => by_cases hst : s.st = .complete <;> simp [errorCode, hst]
  | encode addr cmd plen pdata => by_cases hlong : 255 < plen <;> simp [errorCode, hlong]

/-- A rejected command word ends with `IllegalOp` and with no other code (60_exceptions.md R143). -/
theorem step_endedWith_iff_of_rejected {s t : State} {r : Request} {rest : List Request}
    (hqueue : s.queue = r :: rest) (hrejected : ∀ i, decode r ≠ .ok i) (h : step s = .next t)
    (e : ErrCode) : t.endedWith e ↔ .illegalOp = e := by
  cases hdecode : decode r with
  | ok i => exact absurd hdecode (hrejected i)
  | error d =>
    rw [step_of_decode_eq_error hqueue hdecode] at h
    obtain rfl := Host.Outcome.next.inj h
    exact raiseError_endedWith _ _ e

/-- Settles O11: the code of each operation, the one answer of `ENCODE` that carries `PayloadTooLarge`, and the code
of a rejected word. -/
theorem payloadTooLargeExactlyForLongPayload : Obligations.PayloadTooLargeExactlyForLongPayload := by
  unfold Obligations.PayloadTooLargeExactlyForLongPayload
  refine ⟨?raised, fun i s t h => ?only, ?rejected⟩
  case raised =>
    intro addr cmd plen pdata s hlong
    exact ⟨_, exec_encode_of_lt addr cmd hlong pdata s, (raiseError_endedWith _ _ _).2 rfl⟩
  case only =>
    have hiff : t.endedWith .payloadTooLarge ↔
        ∃ addr cmd plen pdata, i = .encode addr cmd plen pdata ∧ 255 < plen :=
      (exec_endedWith_iff h _).trans errorCode_eq_payloadTooLarge_iff
    refine ⟨hiff, fun hended => ?_⟩
    obtain ⟨addr, cmd, plen, pdata, rfl, hlong⟩ := hiff.1 hended
    rw [exec_encode_of_lt addr cmd hlong] at h
    obtain rfl := Host.Outcome.next.inj h
    exact raiseError_result _ _
  case rejected =>
    intro s t r rest hqueue hrejected h hended
    cases (step_endedWith_iff_of_rejected hqueue hrejected h _).1 hended

end Sys2Proof.Machine
end

section
/-! The command word (30_encoding.md R67 to R69): what each operation code decodes to, that the decoder and the encoder
agree, and that the match and mask table selects the same words. Then one step, read through the decoder. -/

namespace Sys2Proof.Machine

/-- All that the decoder can answer: one row for each operation code that is not reserved (30_encoding.md R68). -/
theorem decode_eq_ok {r : Request} {i : Instr} :
    decode r = .ok i ↔
      (opField r.cw = 0 ∧ i = .reset)
        ∨ (opField r.cw = 1 ∧ i = .push (dinField r.cw))
        ∨ (opField r.cw = 2 ∧ i = .take)
        ∨ (opField r.cw = 3 ∧ i = .takeRaw)
        ∨ (opField r.cw = 4 ∧ i = .encode r.port.addr r.port.cmd r.port.plen r.port.pdata) := by
  have hcode : ∀ k : OpCode, opField r.cw = k ↔ (opField r.cw).toNat = k.toNat := fun k =>
    BitVec.toNat_inj.symm
  simp only [hcode]
  unfold decode
  split
  case h_6 => simp_all
  all_goals next hop => simp [hop, eq_comm]

/-- The operation code of the word is that of the operation it decodes to (30_encoding.md R68). -/
theorem opField_of_decode {r : Request} {i : Instr} (h : decode r = .ok i) : opField r.cw = i.opCode := by
  obtain ⟨hop, rfl⟩ | ⟨hop, rfl⟩ | ⟨hop, rfl⟩ | ⟨hop, rfl⟩ | ⟨hop, rfl⟩ := decode_eq_ok.1 h
  all_goals exact hop

@[simp] theorem opField_encode (i : Instr) : opField (encode i).cw = i.opCode :=
  opField_commandWord _ _

@[simp] theorem dinField_encode (i : Instr) : dinField (encode i).cw = i.din :=
  dinField_commandWord _ _

/-- Every operation decodes from the word to which it assembles (30_encoding.md R73). -/
theorem decode_encode (i : Instr) : decode (encode i) = .ok i := by
  rw [decode_eq_ok]
  cases i with
  | reset => exact .inl ⟨opField_encode _, rfl⟩
  | push b => exact .inr (.inl ⟨opField_encode _, by rw [dinField_encode]; rfl⟩)
  | take => exact .inr (.inr (.inl ⟨opField_encode _, rfl⟩))
  | takeRaw => exact .inr (.inr (.inr (.inl ⟨opField_encode _, rfl⟩)))
  | encode addr cmd plen pdata => exact .inr (.inr (.inr (.inr ⟨opField_encode _, rfl⟩)))

/-- A word with code 001 is the word to which its `PUSH` assembles: no bit of it is ignored. -/
theorem encode_cw_of_push {r : Request} {i : Instr} (hop : opField r.cw = 1) (h : decode r = .ok i) :
    (encode i).cw = r.cw := by
  have hpush : decode r = .ok (.push (dinField r.cw)) := decode_eq_ok.2 (.inr (.inl ⟨hop, rfl⟩))
  obtain rfl := Except.ok.inj (hpush.symm.trans h)
  calc (encode (.push (dinField r.cw))).cw
      = commandWord (opField r.cw) (dinField r.cw) := by rw [hop]; rfl
    _ = r.cw := commandWord_fields _

/-- A request with code 100 keeps its operand port through the `ENCODE` it decodes to. -/
theorem encode_port_of_encode {r : Request} {i : Instr} (hop : opField r.cw = 4) (h : decode r = .ok i) :
    (encode i).port = r.port := by
  obtain rfl := Except.ok.inj ((decode_of_opField_eq_four hop).symm.trans h)
  rfl

/-- Settles O3: the round trip from operations, then what a decoded word keeps on the way back. -/
theorem decodeEncodeAgree : Obligations.DecodeEncodeAgree := by
  unfold Obligations.DecodeEncodeAgree
  refine ⟨decode_encode, fun r i h => ⟨?code, ?push, ?port⟩⟩
  case code => rw [opField_encode, opField_of_decode h]
  case push => exact fun hop => encode_cw_of_push hop h
  case port => exact fun hop => encode_port_of_encode hop h

/-- The mask of the table keeps the operation code and clears `din` (30_encoding.md R68). -/
theorem and_mask (cw : CommandWord) : cw &&& 0x700 = commandWord (opField cw) 0 := by
  have hmask : (0x700 : CommandWord) = commandWord (BitVec.allOnes 3) 0 := by decide
  calc cw &&& 0x700
      = commandWord (opField cw) (dinField cw) &&& commandWord (BitVec.allOnes 3) 0 := by
        rw [commandWord_fields, hmask]
    _ = commandWord (opField cw &&& BitVec.allOnes 3) (dinField cw &&& 0) := BitVec.and_append
    _ = commandWord (opField cw) 0 := by rw [BitVec.and_allOnes]; exact congrArg _ BitVec.and_zero

/-- A masked word is the pattern of a code exactly when the word has that code. -/
theorem and_mask_eq_iff (cw : CommandWord) (op : OpCode) :
    cw &&& 0x700 = commandWord op 0 ↔ opField cw = op := by
  rw [and_mask]
  refine ⟨fun h => ?_, fun h => by rw [h]⟩
  simpa only [opField_commandWord] using congrArg opField h

/-- A row with the mask of the table selects the words with the code of its pattern (30_encoding.md R68). -/
theorem selects_iff {row : OpRow} {op : OpCode} (hmask : row.mask = 0x700)
    (hpattern : row.pattern = commandWord op 0) (cw : CommandWord) :
    row.selects cw = true ↔ opField cw = op := by
  rw [OpRow.selects, beq_iff_eq, hmask, hpattern, and_mask_eq_iff]

/-- Exactly the reserved operation codes are rejected (30_encoding.md R69). -/
theorem exists_decode_eq_error_iff {r : Request} :
    (∃ e, decode r = .error e) ↔ 5 ≤ (opField r.cw).toNat := by
  refine ⟨fun ⟨e, h⟩ => ?_, fun hop => ⟨_, decode_of_four_lt_opField hop⟩⟩
  by_contra hop
  have hlt : (opField r.cw).toNat < 5 := by omega
  interval_cases hcode : (opField r.cw).toNat <;> simp [decode, hcode] at h

theorem opCode_toNat_lt (i : Instr) : i.opCode.toNat < 5 := by
  cases i <;> simp [Instr.opCode]

/-- The mnemonic and the operation code name the same row of the table (30_encoding.md R68). -/
theorem mnemonic_eq_iff (i j : Instr) : i.mnemonic = j.mnemonic ↔ i.opCode = j.opCode := by
  cases i <;> cases j <;> simp [Instr.mnemonic, Instr.opCode]

/-- A word with the code of an operation decodes, and to an operation with that code. -/
theorem exists_decode_opCode_iff (r : Request) (j : Instr) :
    (∃ i, decode r = .ok i ∧ i.opCode = j.opCode) ↔ opField r.cw = j.opCode := by
  refine ⟨fun ⟨i, h, hcode⟩ => (opField_of_decode h).trans hcode, fun hop => ?_⟩
  cases h : decode r with
  | ok i => exact ⟨i, rfl, (opField_of_decode h).symm.trans hop⟩
  | error e =>
    have hreserved := exists_decode_eq_error_iff.1 ⟨e, h⟩
    rw [hop] at hreserved
    exact absurd (opCode_toNat_lt j) (by omega)

/-- The row of an operation selects a word exactly when the word decodes to an operation with that mnemonic. -/
theorem selects_iff_decode {row : OpRow} (j : Instr) (hmask : row.mask = 0x700)
    (hpattern : row.pattern = commandWord j.opCode 0) (hname : row.mnemonic = j.mnemonic) (r : Request) :
    row.selects r.cw = true ↔ ∃ i, decode r = .ok i ∧ i.mnemonic = row.mnemonic := by
  simp only [selects_iff hmask hpattern, hname, mnemonic_eq_iff, exists_decode_opCode_iff]

/-- Settles O4: each row of the table is the row of one operation. -/
theorem decodeSelectsTableRow : Obligations.DecodeSelectsTableRow := by
  unfold Obligations.DecodeSelectsTableRow
  intro row hrow
  simp only [opTable, List.mem_cons, List.not_mem_nil, or_false] at hrow
  obtain rfl | rfl | rfl | rfl | rfl := hrow
  · exact selects_iff_decode .reset rfl rfl rfl
  · exact selects_iff_decode (.push 0) rfl rfl rfl
  · exact selects_iff_decode .take rfl rfl rfl
  · exact selects_iff_decode .takeRaw rfl rfl rfl
  · exact selects_iff_decode (.encode 0 0 0 []) rfl rfl rfl

/-- Settles O5: the row of `PUSH` is the only one that reads `din`. -/
theorem dinIgnoredOutsidePush : Obligations.DinIgnoredOutsidePush := by
  unfold Obligations.DinIgnoredOutsidePush
  intro op d e port hop
  have hcode : op.toNat ≠ 1 := fun h => hop (BitVec.eq_of_toNat_eq h)
  simp only [decode, opField_commandWord]
  split
  case h_2 h => exact absurd h hcode
  all_goals rfl

/-- Settles O6, by evaluating the decoder on the nine words. -/
theorem specCommandWordsDecode : Obligations.SpecCommandWordsDecode := by
  unfold Obligations.SpecCommandWordsDecode
  exact ⟨rfl, rfl, rfl, rfl, rfl, rfl, rfl, rfl, rfl⟩

/-- Settles O7: the reserved codes, then the step that answers them. -/
theorem reservedOperationCodeEndsInIllegalOp : Obligations.ReservedOperationCodeEndsInIllegalOp := by
  unfold Obligations.ReservedOperationCodeEndsInIllegalOp
  refine ⟨fun r => exists_decode_eq_error_iff, fun s r rest hqueue hop => ?_⟩
  rw [step_of_decode_eq_error hqueue (decode_of_four_lt_opField hop)]
  simp [raiseError, ErrCode.marks]

/-- With nothing issued a step changes nothing (log 3). -/
theorem step_of_queue_eq_nil {s : State} (h : s.queue = []) : step s = .next s := by
  simp only [step, fetch_eq_none.2 h]

/-- Settles O8: the two answers of a fetch. -/
theorem stepRunsDecodedOperation : Obligations.StepRunsDecodedOperation := by
  unfold Obligations.StepRunsDecodedOperation
  exact ⟨fun s r rest i hqueue hdecode => step_of_decode_eq_ok hqueue hdecode,
    fun s hqueue => step_of_queue_eq_nil hqueue⟩

/-- All that a step can do when it answers: nothing, the decoded operation, or `IllegalOp` for a rejected word. -/
theorem step_cases {s t : State} (h : step s = .next t) :
    (s.queue = [] ∧ t = s)
      ∨ (∃ r rest i, s.queue = r :: rest ∧ decode r = .ok i ∧ exec i { s with queue := rest } = .next t)
      ∨ ∃ r rest, s.queue = r :: rest ∧ t = raiseError .illegalOp { s with queue := rest } := by
  cases hqueue : s.queue with
  | nil =>
    rw [step_of_queue_eq_nil hqueue] at h
    exact .inl ⟨rfl, (Host.Outcome.next.inj h).symm⟩
  | cons r rest =>
    cases hdecode : decode r with
    | ok i =>
      rw [step_of_decode_eq_ok hqueue hdecode] at h
      exact .inr (.inl ⟨r, rest, i, rfl, hdecode, h⟩)
    | error e =>
      rw [step_of_decode_eq_error hqueue hdecode] at h
      exact .inr (.inr ⟨r, rest, rfl, (Host.Outcome.next.inj h).symm⟩)

end Sys2Proof.Machine
end

section
/-! The checksum and the wire frame (30_encoding.md R62 to R65): the valid frames are exactly the frames that `ENCODE`
builds, one for each triple of fields, and the checksum does not see the order of the bytes. -/

namespace Sys2Proof.Machine

theorem sum8_toNat (s : List Byte) : (sum8 s).toNat = byteSum s % 256 := rfl

/-- `sum8` looks at the bytes' sum alone (30_encoding.md R65). -/
theorem sum8_congr {s t : List Byte} (h : byteSum s = byteSum t) : sum8 s = sum8 t := by
  rw [sum8, h, sum8]

theorem byteSum_perm {s t : List Byte} (h : s.Perm t) : byteSum s = byteSum t :=
  (h.map BitVec.toNat).sum_eq

/-- One byte more, with the running sum reduced at each byte (30_encoding.md R65). -/
theorem foldl_add_mod_eq_byteSum (s : List Byte) :
    ∀ acc : Byte, s.foldl (fun acc b => BitVec.ofNat 8 ((acc.toNat + b.toNat) % 256)) acc
      = BitVec.ofNat 8 (acc.toNat + byteSum s) := by
  induction s with
  | nil => intro acc; simp
  | cons b s ih =>
    intro acc
    apply BitVec.eq_of_toNat_eq
    simp only [List.foldl_cons, ih, BitVec.toNat_ofNat, byteSum_cons]
    omega

/-- Settles O15: the sum's own laws, then the place of `SUM` in a built frame. -/
theorem sum8AddsModulo256 : Obligations.Sum8AddsModulo256 := by
  unfold Obligations.Sum8AddsModulo256
  refine ⟨sum8_toNat, rfl, fun s t h => sum8_congr (byteSum_perm h), fun s => ?bytewise,
    fun addr cmd data _ => buildFrame_getElem?_sum addr cmd data.length data⟩
  case bytewise => rw [foldl_add_mod_eq_byteSum]; simp [sum8]

/-- The tail check on a sequence with its last three bytes written out (41_stream_parser.md R100). -/
theorem tailOk_append_footer {body : List Byte} {e x r : Byte} :
    tailOk (body ++ [e, x, r]) = true ↔ r = 0x0D ∧ e = 0x03 ∧ x = sum8 (body ++ [e]) := by
  have hbytes : (body ++ [e, x, r]).take (body.length + 1) = body ++ [e] := by
    simp [List.take_append]
  rw [tailOk_iff]
  simp [hbytes]

/-- A frame's header, its payload and its footer, as bytes in this order (30_encoding.md R60). -/
def wireBytes (a c l : Byte) (payload : List Byte) (e x r : Byte) : List Byte :=
  [0x02, a, c, l] ++ payload ++ [e, x, r]

/-- A sequence laid out as its length byte announces is a valid frame when its footer is right
(30_encoding.md R62). -/
theorem validFrame_wireBytes_iff {a c l e x r : Byte} {payload : List Byte}
    (hlen : payload.length = l.toNat) :
    validFrame (wireBytes a c l payload e x r) = true ↔
      r = 0x0D ∧ e = 0x03 ∧ x = sum8 ([0x02, a, c, l] ++ payload ++ [e]) := by
  have hsize : (wireBytes a c l payload e x r).length = 7 + l.toNat := by
    simp [wireBytes, ← hlen]; omega
  rw [validFrame_iff_tailOk rfl rfl hsize, wireBytes, tailOk_append_footer]

/-- A sequence that starts with `STX` and has the length its length byte announces is laid out in this way. -/
theorem exists_wireBytes {f : List Byte} {l : Byte} (hstx : f[0]? = some 0x02) (hl : f[3]? = some l)
    (hsize : f.length = 7 + l.toNat) :
    ∃ a c payload e x r, payload.length = l.toNat ∧ f = wireBytes a c l payload e x r := by
  obtain _ | ⟨s, _ | ⟨a, _ | ⟨c, _ | ⟨l', rest⟩⟩⟩⟩ := f
  case cons.cons.cons.cons =>
    obtain rfl : s = 0x02 := by simpa using hstx
    obtain rfl : l' = l := by simpa using hl
    have hrest : rest.length = l'.toNat + 3 := by
      simp only [List.length_cons] at hsize
      omega
    obtain ⟨e, x, r, hfooter⟩ : ∃ e x r, rest.drop l'.toNat = [e, x, r] :=
      List.length_eq_three.1 (by rw [List.length_drop]; omega)
    refine ⟨a, c, rest.take l'.toNat, e, x, r, ?_, ?_⟩
    · rw [List.length_take]; omega
    · rw [wireBytes, List.append_assoc, ← hfooter, List.take_append_drop]
      rfl
  all_goals simp at hl

/-- Every valid frame is laid out as its length byte announces. -/
theorem exists_wireBytes_of_validFrame {f : List Byte} (h : validFrame f = true) :
    ∃ a c l payload e x r, payload.length = l.toNat ∧ f = wireBytes a c l payload e x r := by
  obtain ⟨-, hstx, ⟨l, hl, hsize⟩, -⟩ := validFrame_iff.1 h
  obtain ⟨a, c, payload, e, x, r, hlen, hf⟩ := exists_wireBytes hstx hl hsize
  exact ⟨a, c, l, payload, e, x, r, hlen, hf⟩

/-- `ENCODE` lays its bytes out in that order (40_frame_builder.md R80). -/
theorem buildFrame_eq_wireBytes (addr cmd : Byte) (plen : Nat) (payload : List Byte) :
    buildFrame addr cmd plen payload
      = wireBytes addr cmd (BitVec.ofNat 8 plen) payload 0x03
          (sum8 (framePrefix addr cmd plen payload)) 0x0D := by
  simp [buildFrame, framePrefix, wireBytes, Config.STX, Config.ETX, Config.CR]

/-- The length byte of a payload that fits it (30_encoding.md R64). -/
theorem toNat_length_byte {payload : List Byte} (h : payload.length ≤ 255) :
    (BitVec.ofNat 8 payload.length).toNat = payload.length := by
  rw [BitVec.toNat_ofNat]; omega

/-- Every frame built is valid (40_frame_builder.md R82). -/
theorem validFrame_buildFrame (addr cmd : Byte) {payload : List Byte} (h : payload.length ≤ 255) :
    validFrame (buildFrame addr cmd payload.length payload) = true := by
  rw [buildFrame_eq_wireBytes, validFrame_wireBytes_iff (toNat_length_byte h).symm]
  exact ⟨rfl, rfl, rfl⟩

/-- The valid frames are exactly the frames built from some fields (41_stream_parser.md R103). -/
theorem validFrame_iff_exists_buildFrame {f : List Byte} :
    validFrame f = true ↔
      ∃ addr cmd payload, payload.length ≤ 255 ∧ f = buildFrame addr cmd payload.length payload := by
  constructor
  · intro h
    obtain ⟨a, c, l, payload, e, x, r, hlen, rfl⟩ := exists_wireBytes_of_validFrame h
    obtain ⟨rfl, rfl, rfl⟩ := (validFrame_wireBytes_iff hlen).1 h
    have hl : BitVec.ofNat 8 payload.length = l := by rw [hlen, BitVec.ofNat_toNat, BitVec.setWidth_eq]
    refine ⟨a, c, payload, by have := l.isLt; omega, ?_⟩
    rw [buildFrame_eq_wireBytes, framePrefix, hl]
    rfl
  · rintro ⟨addr, cmd, payload, hlen, rfl⟩
    exact validFrame_buildFrame addr cmd hlen

theorem buildFrame_length (addr cmd : Byte) (plen : Nat) (payload : List Byte) :
    (buildFrame addr cmd plen payload).length = 7 + payload.length := by
  rw [buildFrame, List.length_append, framePrefix_length]
  simp; omega

/-- `decode_fields` of a built frame gives the operands back (40_frame_builder.md R82). -/
theorem decodeFields_buildFrame (addr cmd : Byte) {payload : List Byte} (h : payload.length ≤ 255) :
    decodeFields (buildFrame addr cmd payload.length payload) = some ⟨addr, cmd, payload⟩ := by
  have hpayload : ((buildFrame addr cmd payload.length payload).drop 4).take payload.length = payload := by
    simp [buildFrame_eq_wireBytes, wireBytes]
  rw [decodeFields_of_valid (validFrame_buildFrame addr cmd h) rfl rfl rfl, toNat_length_byte h, hpayload]

/-- Settles O12: validity, length and fields of a built frame. -/
theorem encodeResultIsValidFrame : Obligations.EncodeResultIsValidFrame := by
  unfold Obligations.EncodeResultIsValidFrame
  intro addr cmd pdata hlen
  exact ⟨validFrame_buildFrame addr cmd hlen, buildFrame_length _ _ _ _, decodeFields_buildFrame addr cmd hlen⟩

/-- Settles O33: a valid frame is built from some fields, and these are its own. -/
theorem fieldsDetermineFrame : Obligations.FieldsDetermineFrame := by
  unfold Obligations.FieldsDetermineFrame
  intro f hvalid
  obtain ⟨addr, cmd, payload, hlen, rfl⟩ := validFrame_iff_exists_buildFrame.1 hvalid
  exact ⟨_, decodeFields_buildFrame addr cmd hlen, hlen, fun s => exec_encode_of_le addr cmd hlen s⟩

/-- Frames that differ in the order of their bytes have the same footer: `SUM` sees the sum alone
(70_reset_and_hazards.md R171). -/
theorem validFrame_wireBytes_of_byteSum_eq {a c a' c' l e x r : Byte} {p q : List Byte}
    (hlen : p.length = q.length) (hsum : a.toNat + c.toNat + byteSum p = a'.toNat + c'.toNat + byteSum q)
    (hp : p.length = l.toNat) (h : validFrame (wireBytes a c l p e x r) = true) :
    validFrame (wireBytes a' c' l q e x r) = true := by
  obtain ⟨hr, he, hx⟩ := (validFrame_wireBytes_iff hp).1 h
  refine (validFrame_wireBytes_iff (hlen.symm.trans hp)).2 ⟨hr, he, hx.trans (sum8_congr ?_)⟩
  simp only [byteSum_append, byteSum_cons, byteSum_nil]
  omega

/-- The length byte of a valid frame counts its payload. -/
theorem payload_length_of_validFrame {a c l e x r : Byte} {p : List Byte}
    (h : validFrame (wireBytes a c l p e x r) = true) : p.length = l.toNat := by
  obtain ⟨-, -, ⟨len, hlen, hsize⟩, -⟩ := validFrame_iff.1 h
  obtain rfl : l = len := by simpa [wireBytes] using hlen
  simp [wireBytes] at hsize
  omega

/-- Settles O16: neither exchange changes the sum of the bytes. -/
theorem reorderedBytesKeepFrameValid : Obligations.ReorderedBytesKeepFrameValid := by
  unfold Obligations.ReorderedBytesKeepFrameValid
  refine ⟨fun a c rest h => ?header, fun a c l x p q hperm h => ?payload⟩
  case header =>
    obtain ⟨a', c', l, p, e, x, r, hlen, hf⟩ := exists_wireBytes_of_validFrame h
    obtain ⟨-, rfl, rfl, hrest⟩ : (0x02 : Byte) = 0x02 ∧ a = a' ∧ c = c' ∧ rest = l :: (p ++ [e, x, r]) := by
      simpa [wireBytes] using hf
    have hswap : 0x02 :: c :: a :: rest = wireBytes c a l p e x r := by rw [hrest]; simp [wireBytes]
    rw [hf] at h
    rw [hswap]
    exact validFrame_wireBytes_of_byteSum_eq rfl (by omega) hlen h
  case payload =>
    exact validFrame_wireBytes_of_byteSum_eq hperm.length_eq (by rw [byteSum_perm hperm])
      (payload_length_of_validFrame h) h

end Sys2Proof.Machine
end

section
/-! What every operation leaves alone, whatever the parser's state: a failed operation is `raiseError` and nothing else
(60_exceptions.md R148), no operation touches the issued operations, and the sticky mark follows the error code. -/

namespace Sys2Proof.Machine

/-- A failed operation only reports its error (60_exceptions.md R148). -/
theorem exec_eq_raiseError {i : Instr} {s t : State} (h : exec i s = .next t) (he : errorCode s i ≠ .ok) :
    t = raiseError (errorCode s i) s := by
  cases i with
  | reset => exact absurd rfl he
  | push b => exact absurd rfl he
  | take =>
    obtain ⟨hst, -⟩ | ⟨hst, rfl⟩ := execTake_eq_next.1 h
    · simp [errorCode, hst] at he
    · simp [errorCode, hst]
  | takeRaw =>
    obtain ⟨hst, -⟩ | ⟨hst, rfl⟩ := execTakeRaw_eq_next.1 h
    · simp [errorCode, hst] at he
    · simp [errorCode, hst]
  | encode addr cmd plen pdata =>
    obtain ⟨hlong, rfl⟩ | ⟨hfits, -⟩ := execEncode_eq_next.1 h
    · simp [errorCode, hlong]
    · simp [errorCode, hfits.not_gt] at he

/-- Only the two extractions raise `NotReady` (60_exceptions.md R142). -/
theorem errorCode_eq_notReady_iff {s : State} {i : Instr} :
    errorCode s i = .notReady ↔ (i = .take ∨ i = .takeRaw) ∧ s.st ≠ .complete := by
  cases i with
  | reset => simp [errorCode]
  | push b => simp [errorCode]
  | take => by_cases hst : s.st = .complete <;> simp [errorCode, hst]
  | takeRaw => by_cases hst : s.st = .complete <;> simp [errorCode, hst]
  | encode addr cmd plen pdata => by_cases hlong : 255 < plen <;> simp [errorCode, hlong]

/-- No decoded operation ends in `IllegalOp` (60_exceptions.md R143). -/
theorem errorCode_ne_illegalOp (s : State) (i : Instr) : errorCode s i ≠ .illegalOp := by
  cases i with
  | reset => simp [errorCode]
  | push b => simp [errorCode]
  | take => by_cases hst : s.st = .complete <;> simp [errorCode, hst]
  | takeRaw => by_cases hst : s.st = .complete <;> simp [errorCode, hst]
  | encode addr cmd plen pdata => by_cases hlong : 255 < plen <;> simp [errorCode, hlong]

/-- Of the codes of the five operations only `NotReady` marks the run (log 5). -/
theorem errorCode_marks_iff {s : State} {i : Instr} :
    (errorCode s i).marks = true ↔ errorCode s i = .notReady := by
  have hne := errorCode_ne_illegalOp s i
  cases h : errorCode s i <;> simp_all [ErrCode.marks]

/-- The code an operation ends with is read off the parser's mode alone. -/
theorem errorCode_congr {s t : State} (h : s.st = t.st) (i : Instr) : errorCode s i = errorCode t i := by
  cases i <;> simp [errorCode, h]

/-- Settles O31: the code of each operation. -/
theorem notReadyExactlyWithoutFrame : Obligations.NotReadyExactlyWithoutFrame := by
  unfold Obligations.NotReadyExactlyWithoutFrame
  exact fun i s t h => (exec_endedWith_iff h _).trans errorCode_eq_notReady_iff

/-- Settles O35: a failed operation is its error report. -/
theorem failedOperationWritesNothing : Obligations.FailedOperationWritesNothing := by
  unfold Obligations.FailedOperationWritesNothing
  intro i s t e h hended he
  obtain rfl := (exec_endedWith_iff h e).1 hended
  rw [exec_eq_raiseError h he]
  exact ⟨⟨rfl, rfl, rfl⟩, rfl, rfl⟩

/-- `TAKE` without a completed frame raises `NotReady` (60_exceptions.md R142). -/
theorem exec_take_of_not_complete {s : State} (hst : s.st ≠ .complete) :
    exec .take s = .next (raiseError .notReady s) :=
  execTake_eq_next.2 (.inr ⟨hst, rfl⟩)

/-- `TAKE_RAW` without a completed frame raises `NotReady` (60_exceptions.md R142). -/
theorem exec_takeRaw_of_not_complete {s : State} (hst : s.st ≠ .complete) :
    exec .takeRaw s = .next (raiseError .notReady s) :=
  execTakeRaw_eq_next.2 (.inr ⟨hst, rfl⟩)

/-- Settles O30: both extractions outside `Complete`, with the fields written out. -/
theorem extractionWithoutFrameRaisesNotReady : Obligations.ExtractionWithoutFrameRaisesNotReady := by
  unfold Obligations.ExtractionWithoutFrameRaisesNotReady
  intro s hst
  rw [exec_take_of_not_complete hst, exec_takeRaw_of_not_complete hst]
  simp [raiseError, ErrCode.marks]

/-- A successful extraction leaves the parser in its reset state (41_stream_parser.md R98, R99). -/
theorem parserReset_of_extraction {i : Instr} {s t : State} (hi : i = .take ∨ i = .takeRaw)
    (hst : s.st = .complete) (h : exec i s = .next t) : t.parserReset := by
  obtain rfl | rfl := hi
  · obtain ⟨-, f, -, rfl⟩ | ⟨hne, -⟩ := execTake_eq_next.1 h
    · exact ⟨rfl, rfl, rfl⟩
    · exact absurd hst hne
  · obtain ⟨-, rfl⟩ | ⟨hne, -⟩ := execTakeRaw_eq_next.1 h
    · exact ⟨rfl, rfl, rfl⟩
    · exact absurd hst hne

/-- An extraction outside `Complete` answers with `NotReady`, whichever of the two it is. -/
theorem exec_extraction_of_not_complete {i : Instr} {s : State} (hi : i = .take ∨ i = .takeRaw)
    (hst : s.st ≠ .complete) : exec i s = .next (raiseError .notReady s) := by
  obtain rfl | rfl := hi
  · exact exec_take_of_not_complete hst
  · exact exec_takeRaw_of_not_complete hst

/-- Settles O32: the first extraction leaves the parser seeking, where the second finds no frame. -/
theorem secondExtractionRaisesNotReady : Obligations.SecondExtractionRaisesNotReady := by
  unfold Obligations.SecondExtractionRaisesNotReady
  intro i j s t hi hj h hended
  have hst : s.st = .complete := by
    by_contra hne
    have hcode := errorCode_eq_notReady_iff.2 ⟨hi, hne⟩
    rw [(exec_endedWith_iff h _).1 hended] at hcode
    cases hcode
  obtain ⟨hseeking, -⟩ := parserReset_of_extraction hi hst h
  exact ⟨_, exec_extraction_of_not_complete hj (by simp [hseeking]), (raiseError_endedWith _ _ _).2 rfl,
    ⟨rfl, rfl, rfl⟩⟩

/-- All that `PUSH` can do when it answers, in every state: one case for each row of 41_stream_parser.md R110. -/
theorem exec_push_cases {b : Byte} {s t : State} (h : exec (.push b) s = .next t) :
    (s.st = .seekingStart ∧ t = deliver false .none (seek b s))
      ∨ (s.reading ∧ s.need ≠ 0 ∧ s.need ≠ 1 ∧ Memory.blen s.buf < Config.BUF_CAP
          ∧ t = deliver false .none (accumulated b s))
      ∨ (s.st = .readingHeader ∧ s.need = 1 ∧ Memory.blen s.buf < Config.BUF_CAP
          ∧ ∃ len, Memory.read (accumulated b s).buf 3 = some len
            ∧ t = deliver false .none
                { accumulated b s with need := len.toNat + 3, st := .readingPayloadAndFooter })
      ∨ (s.st = .readingPayloadAndFooter ∧ s.need = 1 ∧ Memory.blen s.buf < Config.BUF_CAP
          ∧ tailOk (Memory.bytes s.buf ++ [b]) = true ∧ t = frameKept b s)
      ∨ (s.st = .readingPayloadAndFooter ∧ s.need = 1
          ∧ tailOk (Memory.bytes s.buf ++ [b]) = false ∧ t = deliver false .none (resync s))
      ∨ (s.st = .complete ∧ t = pushComplete Config.completePush b s) := by
  rcases execPushWith_eq_next.1 h with ⟨hst, rfl⟩ | ⟨hst, hpush⟩ | ⟨hst, hpush⟩ | ⟨hst, rfl⟩
  · exact .inl ⟨hst, rfl⟩
  · obtain ⟨hzero, hroom, ⟨hone, rfl⟩ | ⟨hone, len, hlen, rfl⟩⟩ := pushHeader_eq_ok.1 hpush
    · exact .inr (.inl ⟨.inl hst, hzero, hone, hroom, rfl⟩)
    · exact .inr (.inr (.inl ⟨hst, hone, hroom, len, hlen, rfl⟩))
  · obtain ⟨hzero, hroom, ⟨hone, rfl⟩ | ⟨hone, hcomplete⟩⟩ := pushPayload_eq_ok.1 hpush
    · exact .inr (.inl ⟨.inr hst, hzero, hone, hroom, rfl⟩)
    · obtain ⟨-, hend⟩ := completeFrame_eq_ok.1 hcomplete
      rw [accumulated_buf, Memory.bytes_concat] at hend
      obtain ⟨htail, rfl⟩ | ⟨htail, rfl⟩ := hend
      · exact .inr (.inr (.inr (.inl ⟨hst, hone, hroom, htail, rfl⟩)))
      · exact .inr (.inr (.inr (.inr (.inl ⟨hst, hone, htail, rfl⟩))))
  · exact .inr (.inr (.inr (.inr (.inr ⟨hst, rfl⟩))))

/-- A byte pushed in `Complete` starts a frame only if the open parameter lets it be examined
(41_stream_parser.md R97). -/
theorem pushComplete_eq (p : CompletePush) (b : Byte) (s : State) :
    pushComplete p b s = deliver false .none
      (if p = .reprocess ∧ b = 0x02 then startFrame s else resync s) := by
  cases p with
  | drop => simp [pushComplete]
  | reprocess =>
    by_cases hb : b = 0x02
    · subst hb; rfl
    · rw [if_neg fun h => hb h.2, pushComplete, seek_of_ne hb]

theorem exec_push_of_complete {s : State} (hst : s.st = .complete) (b : Byte) :
    exec (.push b) s = .next (pushComplete Config.completePush b s) :=
  execPushWith_eq_next.2 (.inr (.inr (.inr ⟨hst, rfl⟩)))

/-- Settles O22: the two cases of `pushComplete_eq`. -/
theorem pushInCompleteLosesFrame : Obligations.PushInCompleteLosesFrame := by
  unfold Obligations.PushInCompleteLosesFrame
  intro b s hst
  rw [exec_push_of_complete hst, pushComplete_eq]
  by_cases hb : Config.completePush = .reprocess ∧ b = 0x02
  · rw [if_pos hb, if_pos hb]; rfl
  · rw [if_neg hb, if_neg hb]; rfl

/-- Settles O27: outside `Complete` the dispatch does not look at the parameter. -/
theorem completePushParameterUnobservable : Obligations.CompletePushParameterUnobservable := by
  unfold Obligations.CompletePushParameterUnobservable
  refine ⟨fun b s => rfl, fun p q b s hduty => ?_⟩
  have hst : s.st ≠ .complete := by simpa [callerDuty, viewComplete] using hduty
  unfold execPushWith
  split
  case h_4 hcomplete => exact absurd hcomplete hst
  all_goals rfl

/-- `PUSH` touches neither the issued operations nor the mark (logs 2 and 5). -/
theorem exec_push_interface {b : Byte} {s t : State} (h : exec (.push b) s = .next t) :
    t.queue = s.queue ∧ t.faultMark = s.faultMark := by
  obtain ⟨-, rfl⟩ | ⟨-, -, -, -, rfl⟩ | ⟨-, -, -, len, -, rfl⟩ | ⟨-, -, -, -, rfl⟩ | ⟨-, -, -, rfl⟩ | ⟨-, rfl⟩ :=
    exec_push_cases h
  case inl => exact ⟨seek_queue b s, seek_faultMark b s⟩
  case inr.inr.inr.inr.inr =>
    rw [pushComplete_eq]
    split <;> exact ⟨rfl, rfl⟩
  all_goals exact ⟨rfl, rfl⟩

/-- A successful operation touches neither the issued operations nor the mark (logs 2 and 5). -/
theorem exec_interface_of_ok {i : Instr} {s t : State} (h : exec i s = .next t) (he : errorCode s i = .ok) :
    t.queue = s.queue ∧ t.faultMark = s.faultMark := by
  cases i with
  | reset =>
    obtain rfl := Host.Outcome.next.inj ((exec_reset s).symm.trans h)
    exact ⟨rfl, rfl⟩
  | push b => exact exec_push_interface h
  | take =>
    obtain ⟨-, f, -, rfl⟩ | ⟨hst, -⟩ := execTake_eq_next.1 h
    · exact ⟨rfl, rfl⟩
    · simp [errorCode, hst] at he
  | takeRaw =>
    obtain ⟨-, rfl⟩ | ⟨hst, -⟩ := execTakeRaw_eq_next.1 h
    · exact ⟨rfl, rfl⟩
    · simp [errorCode, hst] at he
  | encode addr cmd plen pdata =>
    obtain ⟨hlong, -⟩ | ⟨-, -, rfl⟩ := execEncode_eq_next.1 h
    · simp [errorCode, hlong] at he
    · exact ⟨rfl, rfl⟩

/-- No operation touches the issued operations (log 2). -/
theorem exec_queue {i : Instr} {s t : State} (h : exec i s = .next t) : t.queue = s.queue := by
  by_cases he : errorCode s i = .ok
  · obtain ⟨hqueue, -⟩ := exec_interface_of_ok h he
    exact hqueue
  · rw [exec_eq_raiseError h he, raiseError_queue]

/-- The mark after an operation (log 5). -/
theorem exec_faultMark {i : Instr} {s t : State} (h : exec i s = .next t) :
    t.faultMark = (s.faultMark || (errorCode s i).marks) := by
  by_cases he : errorCode s i = .ok
  · obtain ⟨-, hmark⟩ := exec_interface_of_ok h he
    simp [hmark, he, ErrCode.marks]
  · rw [exec_eq_raiseError h he, raiseError_faultMark]

/-- A decoded operation sets the mark exactly when it ends in `NotReady` (log 5). -/
theorem exec_faultMark_iff {i : Instr} {s t : State} (h : exec i s = .next t) :
    t.faultMark = true ↔ s.faultMark = true ∨ t.endedWith .notReady := by
  rw [exec_faultMark h, Bool.or_eq_true, errorCode_marks_iff, exec_endedWith_iff h]

theorem not_endedWith_illegalOp_of_exec {i : Instr} {s t : State} (h : exec i s = .next t) :
    ¬ t.endedWith .illegalOp :=
  fun hended => errorCode_ne_illegalOp s i ((exec_endedWith_iff h _).1 hended)

/-- Settles O36: the three answers of a step. -/
theorem markIsSticky : Obligations.MarkIsSticky := by
  unfold Obligations.MarkIsSticky
  refine ⟨fun s t hqueue h => ?issued, fun s t hqueue h => ?idle, fun i s t h => exec_faultMark_iff h⟩
  case issued =>
    obtain ⟨hnil, -⟩ | ⟨r, rest, i, -, -, hexec⟩ | ⟨r, rest, -, rfl⟩ := step_cases h
    · exact absurd hnil hqueue
    · simp [exec_faultMark_iff hexec, not_endedWith_illegalOp_of_exec hexec]
    · simp [ErrCode.marks]
  case idle =>
    rw [step_of_queue_eq_nil hqueue] at h
    rw [Host.Outcome.next.inj h]

theorem read_nil (a : Nat) : Memory.read [] a = none := rfl

/-- Settles O37: the reset buffer reads as empty, and every other answer keeps the buffer. -/
theorem otherOperationsMemoryFrame : Obligations.OtherOperationsMemoryFrame := by
  unfold Obligations.OtherOperationsMemoryFrame
  intro i s t hpush h
  split
  case isTrue hclears =>
    have hreset : t.buf = [] := by
      obtain rfl | ⟨hi, hst⟩ := hclears
      · obtain rfl := Host.Outcome.next.inj ((exec_reset s).symm.trans h)
        rfl
      · obtain ⟨-, -, hbuf⟩ := parserReset_of_extraction hi hst h
        exact hbuf
    exact fun a => by rw [hreset, read_nil]
  case isFalse hkeeps =>
    have hbuf : t.buf = s.buf := by
      cases i with
      | reset => exact absurd (.inl rfl) hkeeps
      | push b => exact absurd rfl (hpush b)
      | take =>
        have hst : s.st ≠ .complete := fun hst => hkeeps (.inr ⟨.inl rfl, hst⟩)
        rw [exec_take_of_not_complete hst] at h
        rw [← Host.Outcome.next.inj h, raiseError_buf]
      | takeRaw =>
        have hst : s.st ≠ .complete := fun hst => hkeeps (.inr ⟨.inr rfl, hst⟩)
        rw [exec_takeRaw_of_not_complete hst] at h
        rw [← Host.Outcome.next.inj h, raiseError_buf]
      | encode addr cmd plen pdata =>
        obtain ⟨-, -, hbuf⟩ := exec_encode_sameParser h
        exact hbuf
    exact fun a => by rw [hbuf]

/-- A state is its parser and its interface fields. -/
theorem State.eq_of_sameParser {s t : State} (hparser : s.sameParser t) (hqueue : t.queue = s.queue)
    (hresult : t.result = s.result) (hmark : t.faultMark = s.faultMark) : t = s := by
  obtain ⟨st, need, buf, queue, result, mark⟩ := t
  obtain ⟨rfl, rfl, rfl⟩ := hparser
  subst hqueue hresult hmark
  rfl

/-- `ENCODE` answers in every state what it answers in one, and changes nothing but the result
(40_frame_builder.md R84). -/
theorem exec_encode_of_exec_encode {addr cmd : Byte} {plen : Nat} {pdata : List Byte} {s t : State}
    (h : exec (.encode addr cmd plen pdata) s = .next t) (u : State) :
    exec (.encode addr cmd plen pdata) u = .next { u with result := t.result } := by
  obtain ⟨hlong, rfl⟩ | ⟨hfits, hport, rfl⟩ := execEncode_eq_next.1 h
  · rw [exec_encode_of_lt addr cmd hlong, raiseError_payloadTooLarge, raiseError_result]
  · exact execEncode_eq_next.2 (.inr ⟨hfits, hport, rfl⟩)

/-- Settles O13: the other operation meets the same parser after `ENCODE`, and `ENCODE` does not look at what the
other one leaves. -/
theorem encodeCommutesWithEveryOperation : Obligations.EncodeCommutesWithEveryOperation := by
  unfold Obligations.EncodeCommutesWithEveryOperation
  intro addr cmd plen pdata i s t u hencode hi
  have ht : t = { s with result := t.result } :=
    Host.Outcome.next.inj (hencode.symm.trans (exec_encode_of_exec_encode hencode s))
  obtain ⟨v, hv, hparser, hresult⟩ := exec_sameParser (exec_encode_sameParser hencode) hi
  have hqueue : v.queue = u.queue := by rw [exec_queue hv, exec_queue hencode, exec_queue hi]
  have hmark : v.faultMark = u.faultMark := by
    rw [exec_faultMark hv, exec_faultMark hi, errorCode_congr (congrArg State.st ht) i,
      congrArg State.faultMark ht]
    rfl
  exact ⟨v, _, hv, exec_encode_of_exec_encode hencode u,
    State.eq_of_sameParser hparser hqueue hresult hmark, rfl⟩

/-- Settles O14: the slice of a longer port, and the missing slice of a shorter one. -/
theorem encodeOnContradictoryPort : Obligations.EncodeOnContradictoryPort := by
  unfold Obligations.EncodeOnContradictoryPort
  refine ⟨fun addr cmd plen pdata s hfits hport => ?longer, fun addr cmd plen pdata s hfits hport => ?shorter⟩
  case longer =>
    have hencode : ∀ p : List Byte, plen ≤ p.length → exec (.encode addr cmd plen p) s
        = .next (deliver false (.bytes (buildFrame addr cmd plen (p.take plen))) s) :=
      fun p hp => execEncode_eq_next.2 (.inr ⟨hfits, hp, rfl⟩)
    rw [hencode pdata hport, hencode (pdata.take plen) (by simp [hport]), List.take_take, min_self]
  case shorter =>
    have hmax : ¬ Config.MAX_PAYLOAD < plen := hfits.not_gt
    have hslice : payloadSlice pdata plen = .error (.payloadAddress pdata.length) := if_neg hport.not_ge
    simp [exec, execEncode, hmax, hslice]

end Sys2Proof.Machine
end

section
/-! The parser's invariant (10_state.md R30): what establishes it in each mode, that every operation keeps it, and that
from a state with it no operation stops the machine. -/

namespace Sys2Proof.Machine

theorem State.inv_of_parserReset {s : State} (h : s.parserReset) : s.Inv := by
  obtain ⟨hst, hneed, hbuf⟩ := h
  refine ⟨hbuf ▸ Memory.wf_nil, fun _ => ⟨hbuf, hneed⟩, ?_, ?_, ?_⟩
  all_goals simp [hst]

/-- The invariant is about the parser alone. -/
theorem State.inv_of_sameParser {s t : State} (h : s.sameParser t) (hinv : s.Inv) : t.Inv := by
  obtain ⟨hst, hneed, hbuf⟩ := h
  rw [State.Inv, hst, hneed, hbuf]
  exact hinv

theorem State.inv_of_header {s : State} (hst : s.st = .readingHeader) (hwf : Memory.wf s.buf)
    (hge : 1 ≤ Memory.blen s.buf) (hle : Memory.blen s.buf ≤ 3) (hneed : s.need = 4 - Memory.blen s.buf)
    (hstx : Memory.read s.buf 0 = some 0x02) : s.Inv := by
  refine ⟨hwf, ?_, fun _ => ⟨hge, hle, hneed, hstx⟩, ?_, ?_⟩
  all_goals simp [hst]

theorem State.inv_of_payload {s : State} (hst : s.st = .readingPayloadAndFooter) (hwf : Memory.wf s.buf)
    (hge : 4 ≤ Memory.blen s.buf) (hle : Memory.blen s.buf ≤ 6 + lenByte s.buf)
    (hneed : s.need = 7 + lenByte s.buf - Memory.blen s.buf)
    (hstx : Memory.read s.buf 0 = some 0x02) : s.Inv := by
  refine ⟨hwf, ?_, ?_, fun _ => ⟨hge, hle, hneed, hstx⟩, ?_⟩
  all_goals simp [hst]

theorem State.inv_of_complete {s : State} (hst : s.st = .complete) (hwf : Memory.wf s.buf)
    (hneed : s.need = 0) (hvalid : validFrame (Memory.bytes s.buf) = true) : s.Inv := by
  refine ⟨hwf, ?_, ?_, ?_, fun _ => ⟨hneed, hvalid⟩⟩
  all_goals simp [hst]

theorem read_single_zero (b : Byte) : Memory.read [(0, b)] 0 = some b := rfl

theorem read_single_of_ne (b : Byte) {a : Nat} (ha : a ≠ 0) : Memory.read [(0, b)] a = none := by
  rw [Memory.read_eq_none_iff (Memory.wf_single b)]
  exact Nat.one_le_iff_ne_zero.2 ha

/-- The parser after an `STX` has started a frame (41_stream_parser.md R92). -/
theorem State.inv_startFrame (s : State) : (startFrame s).Inv :=
  State.inv_of_header rfl (Memory.wf_single _) le_rfl (by simp [Memory.blen]) rfl rfl

/-- In `ReadingHeader` the buffer holds one to three bytes, the first of them `STX` (10_state.md R30). -/
theorem State.Inv.header {s : State} (h : s.Inv) (hst : s.st = .readingHeader) :
    1 ≤ Memory.blen s.buf ∧ Memory.read s.buf 0 = some 0x02 := by
  obtain ⟨-, -, hheader, -, -⟩ := h
  obtain ⟨hge, -, -, hstx⟩ := hheader hst
  exact ⟨hge, hstx⟩

/-- In `ReadingPayloadAndFooter` the header is buffered (10_state.md R30). -/
theorem State.Inv.four_le_blen {s : State} (h : s.Inv) (hst : s.st = .readingPayloadAndFooter) :
    4 ≤ Memory.blen s.buf := by
  obtain ⟨-, -, -, hpayload, -⟩ := h
  obtain ⟨hge, -⟩ := hpayload hst
  exact hge

/-- While a frame is read, `STX` stands at address 0. -/
theorem State.Inv.read_stx {s : State} (h : s.Inv) (hread : s.reading) :
    1 ≤ Memory.blen s.buf ∧ Memory.read s.buf 0 = some 0x02 := by
  rcases hread with hst | hst
  · exact h.header hst
  · exact ⟨by have := h.four_le_blen hst; omega, h.read_stx_of_payload hst⟩

/-- While a frame is read at least one more byte is needed (41_stream_parser.md R94). -/
theorem State.Inv.need_pos {s : State} (h : s.Inv) (hread : s.reading) : 1 ≤ s.need := by
  obtain ⟨-, -, hheader, hpayload, -⟩ := h
  rcases hread with hst | hst
  · obtain ⟨-, hle, hneed, -⟩ := hheader hst
    omega
  · obtain ⟨-, hle, hneed, -⟩ := hpayload hst
    omega

/-- An accumulated byte leaves `STX` at address 0. -/
theorem read_stx_accumulated {s : State} (hinv : s.Inv) (hread : s.reading) (b : Byte) :
    Memory.read (accumulated b s).buf 0 = some 0x02 := by
  obtain ⟨hge, hstx⟩ := hinv.read_stx hread
  have hroom := hinv.blen_lt_cap hread
  obtain ⟨hwf, -⟩ := hinv
  exact (Memory.read_concat_of_ne hwf hroom b (by omega)).trans hstx

/-- A byte behind the header leaves the length byte as it is. -/
theorem lenByte_accumulated {s : State} (hinv : s.Inv) (hst : s.st = .readingPayloadAndFooter) (b : Byte) :
    lenByte (accumulated b s).buf = lenByte s.buf := by
  rw [lenByte, read_accumulated_of_payload hinv hst b (by omega), lenByte]

/-- Before the last byte of the header or of the frame, accumulating keeps the invariant. -/
theorem State.inv_accumulated {s : State} (hinv : s.Inv) (hread : s.reading) (hneed : 1 < s.need) (b : Byte) :
    (accumulated b s).Inv := by
  have hwf := wf_accumulated hinv hread b
  have hstx := read_stx_accumulated hinv hread b
  have hblen : Memory.blen (accumulated b s).buf = Memory.blen s.buf + 1 := Memory.blen_concat _ _
  rcases hread with hst | hst
  · have hsum := hinv.blen_add_need_of_header hst
    refine State.inv_of_header hst hwf ?_ ?_ ?_ hstx
    all_goals rw [hblen]
    · omega
    · omega
    · rw [accumulated_need]; omega
  · have hsum := hinv.blen_add_need_of_payload hst
    have hge := hinv.four_le_blen hst
    have hlen := lenByte_accumulated hinv hst b
    refine State.inv_of_payload hst hwf ?_ ?_ ?_ hstx
    all_goals rw [hblen]
    · omega
    · omega
    · rw [accumulated_need]; omega

/-- The state after the byte that completes the header (41_stream_parser.md R93). -/
def headerCompleted (b : Byte) (s : State) : State :=
  { accumulated b s with need := b.toNat + 3, st := .readingPayloadAndFooter }

@[simp] theorem headerCompleted_st (b : Byte) (s : State) :
    (headerCompleted b s).st = .readingPayloadAndFooter := rfl
@[simp] theorem headerCompleted_need (b : Byte) (s : State) : (headerCompleted b s).need = b.toNat + 3 := rfl
@[simp] theorem headerCompleted_buf (b : Byte) (s : State) :
    (headerCompleted b s).buf = s.buf ++ [(Memory.blen s.buf, b)] := rfl

/-- The length byte turns the header's invariant into that of the rest of the frame. -/
theorem State.inv_headerCompleted {s : State} (hinv : s.Inv) (hst : s.st = .readingHeader) (hneed : s.need = 1)
    (b : Byte) : (headerCompleted b s).Inv := by
  have hblen : Memory.blen (headerCompleted b s).buf = 4 := by
    have := hinv.blen_add_need_of_header hst
    rw [headerCompleted_buf, Memory.blen_concat]
    omega
  have hlen : lenByte (headerCompleted b s).buf = b.toNat :=
    lenByte_of_read (read_len_of_header_completed hinv hst hneed b)
  refine State.inv_of_payload rfl (wf_accumulated hinv (.inl hst) b) hblen.ge (by omega) ?_
    (read_stx_accumulated hinv (.inl hst) b)
  rw [hblen, hlen, headerCompleted_need]
  omega

/-- A frame whose tail check passed is valid, and stays buffered as such (41_stream_parser.md R95). -/
theorem State.inv_frameKept {s : State} (hinv : s.Inv) (hst : s.st = .readingPayloadAndFooter)
    (hneed : s.need = 1) {b : Byte} (htail : tailOk (Memory.bytes s.buf ++ [b]) = true) :
    (frameKept b s).Inv := by
  refine State.inv_of_complete rfl (wf_accumulated hinv (.inr hst) b) ?_ ?_
  · have hzero : s.need - 1 = 0 := by omega
    exact hzero
  · rw [frameKept_buf, Memory.bytes_concat]
    exact (validFrame_iff_tailOk_of_frame_completed hinv hst hneed b).2 htail

/-- All that `PUSH` can do in a state with the invariant: one case for each row of 41_stream_parser.md R110. -/
theorem exec_push_cases_of_inv {b : Byte} {s t : State} (hinv : s.Inv) (h : exec (.push b) s = .next t) :
    (s.st = .seekingStart ∧ t = deliver false .none (seek b s))
      ∨ (s.reading ∧ 1 < s.need ∧ t = deliver false .none (accumulated b s))
      ∨ (s.st = .readingHeader ∧ s.need = 1 ∧ t = deliver false .none (headerCompleted b s))
      ∨ (s.st = .readingPayloadAndFooter ∧ s.need = 1
          ∧ tailOk (Memory.bytes s.buf ++ [b]) = true ∧ t = frameKept b s)
      ∨ (s.st = .readingPayloadAndFooter ∧ s.need = 1
          ∧ tailOk (Memory.bytes s.buf ++ [b]) = false ∧ t = deliver false .none (resync s))
      ∨ (s.st = .complete ∧ t = pushComplete Config.completePush b s) := by
  obtain hseeking | ⟨hread, hzero, hone, -, rfl⟩ | ⟨hst, hneed, -, len, hlen, rfl⟩ | ⟨hst, hneed, -, hkept⟩ |
    hdropped | hcomplete := exec_push_cases h
  · exact .inl hseeking
  · exact .inr (.inl ⟨hread, by omega, rfl⟩)
  · obtain rfl : b = len :=
      Option.some.inj ((read_len_of_header_completed hinv hst hneed b).symm.trans hlen)
    exact .inr (.inr (.inl ⟨hst, hneed, rfl⟩))
  · exact .inr (.inr (.inr (.inl ⟨hst, hneed, hkept⟩)))
  · exact .inr (.inr (.inr (.inr (.inl hdropped))))
  · exact .inr (.inr (.inr (.inr (.inr hcomplete))))

/-- In a state with the invariant `PUSH` answers (41_stream_parser.md R91). -/
theorem exec_push_answers {s : State} (hinv : s.Inv) (b : Byte) : ∃ t, exec (.push b) s = .next t := by
  cases hst : s.st with
  | seekingStart => exact ⟨_, exec_push_of_seeking hst b⟩
  | readingHeader =>
    rcases (hinv.need_pos (.inl hst)).eq_or_lt with hneed | hneed
    · exact ⟨_, exec_push_of_header_completed hinv hst hneed.symm b⟩
    · exact ⟨_, exec_push_of_one_lt_need hinv (.inl hst) hneed b⟩
  | readingPayloadAndFooter =>
    rcases (hinv.need_pos (.inr hst)).eq_or_lt with hneed | hneed
    · cases htail : tailOk (Memory.bytes s.buf ++ [b]) with
      | true => exact ⟨_, exec_push_of_tailOk hinv hst hneed.symm htail⟩
      | false => exact ⟨_, exec_push_of_not_tailOk hinv hst hneed.symm htail⟩
    · exact ⟨_, exec_push_of_one_lt_need hinv (.inr hst) hneed b⟩
  | complete => exact ⟨_, exec_push_of_complete hst b⟩

/-- `PUSH` keeps the invariant. -/
theorem inv_of_exec_push {b : Byte} {s t : State} (hinv : s.Inv) (h : exec (.push b) s = .next t) : t.Inv := by
  obtain ⟨-, rfl⟩ | ⟨hread, hneed, rfl⟩ | ⟨hst, hneed, rfl⟩ | ⟨hst, hneed, htail, rfl⟩ | ⟨-, -, -, rfl⟩ |
    ⟨-, rfl⟩ := exec_push_cases_of_inv hinv h
  case inl =>
    by_cases hb : b = 0x02
    · rw [hb, seek_stx]; exact State.inv_startFrame s
    · rw [seek_of_ne hb]; exact hinv
  case inr.inl => exact State.inv_accumulated hinv hread hneed b
  case inr.inr.inl => exact State.inv_headerCompleted hinv hst hneed b
  case inr.inr.inr.inl => exact State.inv_frameKept hinv hst hneed htail
  case inr.inr.inr.inr.inl => exact State.inv_of_parserReset ⟨rfl, rfl, rfl⟩
  case inr.inr.inr.inr.inr =>
    rw [pushComplete_eq]
    split
    · exact State.inv_startFrame s
    · exact State.inv_of_parserReset ⟨rfl, rfl, rfl⟩

/-- An operation other than `PUSH` clears the parser or leaves it as it is. -/
theorem parserReset_or_sameParser {i : Instr} {s t : State} (hi : ∀ b, i ≠ .push b)
    (h : exec i s = .next t) : t.parserReset ∨ s.sameParser t := by
  by_cases he : errorCode s i = .ok
  · cases i with
    | reset =>
      obtain rfl := Host.Outcome.next.inj ((exec_reset s).symm.trans h)
      exact .inl ⟨rfl, rfl, rfl⟩
    | push b => exact absurd rfl (hi b)
    | take =>
      have hst : s.st = .complete := by by_contra hst; simp [errorCode, hst] at he
      exact .inl (parserReset_of_extraction (.inl rfl) hst h)
    | takeRaw =>
      have hst : s.st = .complete := by by_contra hst; simp [errorCode, hst] at he
      exact .inl (parserReset_of_extraction (.inr rfl) hst h)
    | encode addr cmd plen pdata => exact .inr (exec_encode_sameParser h)
  · rw [exec_eq_raiseError h he]
    exact .inr ⟨rfl, rfl, rfl⟩

/-- Every operation keeps the invariant. -/
theorem inv_of_exec {i : Instr} {s t : State} (hinv : s.Inv) (h : exec i s = .next t) : t.Inv := by
  by_cases hi : ∃ b, i = .push b
  · obtain ⟨b, rfl⟩ := hi
    exact inv_of_exec_push hinv h
  · obtain hreset | hsame := parserReset_or_sameParser (fun b hb => hi ⟨b, hb⟩) h
    · exact State.inv_of_parserReset hreset
    · exact State.inv_of_sameParser hsame hinv

/-- Settles O39: the three answers of a step. -/
theorem stepKeepsInvariant : Obligations.StepKeepsInvariant := by
  unfold Obligations.StepKeepsInvariant
  intro s t hinv h
  obtain ⟨-, rfl⟩ | ⟨r, rest, i, -, -, hexec⟩ | ⟨r, rest, -, rfl⟩ := step_cases h
  · exact hinv
  · have hissued : State.Inv { s with queue := rest } := hinv
    exact inv_of_exec hissued hexec
  · exact hinv

/-- Settles O38: the power-on parser is in its reset state. -/
theorem resetMeetsInvariant : Obligations.ResetMeetsInvariant := by
  unfold Obligations.ResetMeetsInvariant
  exact State.inv_of_parserReset ⟨rfl, rfl, rfl⟩

/-- Settles O2, field by field and view by view. -/
theorem resetStateSeeksWithEmptyBuffer : Obligations.ResetStateSeeksWithEmptyBuffer := by
  unfold Obligations.ResetStateSeeksWithEmptyBuffer
  exact ⟨⟨rfl, rfl, rfl⟩, rfl, rfl, rfl, rfl, rfl, rfl, rfl, rfl, rfl⟩

/-- `PUSH` keeps the buffer canonical in every state, the invariant or not (20_memory.md R40). -/
theorem wf_of_exec_push {b : Byte} {s t : State} (hwf : Memory.wf s.buf) (h : exec (.push b) s = .next t) :
    Memory.wf t.buf := by
  obtain ⟨-, rfl⟩ | ⟨-, -, -, hroom, rfl⟩ | ⟨-, -, hroom, len, -, rfl⟩ | ⟨-, -, hroom, -, rfl⟩ |
    ⟨-, -, -, rfl⟩ | ⟨-, rfl⟩ := exec_push_cases h
  case inl =>
    by_cases hb : b = 0x02
    · rw [hb, seek_stx]; exact Memory.wf_single _
    · rw [seek_of_ne hb]; exact hwf
  case inr.inl => exact Memory.wf_concat hwf hroom b
  case inr.inr.inl => exact Memory.wf_concat hwf hroom b
  case inr.inr.inr.inl => exact Memory.wf_concat hwf hroom b
  case inr.inr.inr.inr.inl => exact Memory.wf_nil
  case inr.inr.inr.inr.inr =>
    rw [pushComplete_eq]
    split
    · exact Memory.wf_single _
    · exact Memory.wf_nil

/-- Every operation keeps the buffer canonical (20_memory.md R40). -/
theorem wf_of_exec {i : Instr} {s t : State} (hwf : Memory.wf s.buf) (h : exec i s = .next t) :
    Memory.wf t.buf := by
  by_cases hi : ∃ b, i = .push b
  · obtain ⟨b, rfl⟩ := hi
    exact wf_of_exec_push hwf h
  · obtain ⟨-, -, hbuf⟩ | ⟨-, -, hbuf⟩ := parserReset_or_sameParser (fun b hb => hi ⟨b, hb⟩) h
    · rw [hbuf]; exact Memory.wf_nil
    · rw [hbuf]; exact hwf

/-- Settles O40: the three answers of a step. -/
theorem stepKeepsBufferCanonical : Obligations.StepKeepsBufferCanonical := by
  unfold Obligations.StepKeepsBufferCanonical
  intro s t hwf h
  obtain ⟨-, rfl⟩ | ⟨r, rest, i, -, -, hexec⟩ | ⟨r, rest, -, rfl⟩ := step_cases h
  · exact hwf
  · have hissued : Memory.wf (State.buf { s with queue := rest }) := hwf
    exact wf_of_exec hissued hexec
  · exact hwf

/-- Settles O23: `PUSH` answers, and its answer carries `OK`. -/
theorem pushNeverEndsInError : Obligations.PushNeverEndsInError := by
  unfold Obligations.PushNeverEndsInError
  intro b s hinv
  obtain ⟨t, h⟩ := exec_push_answers hinv b
  exact ⟨t, _, h, exec_push_result h, exec_push_interface h⟩

/-- Settles O25: `STX` and the length byte are in place, so the tail check decides validity. -/
theorem tailCheckIsFrameValidity : Obligations.TailCheckIsFrameValidity := by
  unfold Obligations.TailCheckIsFrameValidity
  exact fun b s hinv hst hneed =>
    (Bool.eq_iff_iff.2 (validFrame_iff_tailOk_of_frame_completed hinv hst hneed b)).symm

end Sys2Proof.Machine
end

section
/-! The buffer in `Complete` (10_state.md R30): it holds the frame that `ENCODE` builds from some fields, which the two
extractions and the views read out; and the bytes of memory that `PUSH` changes. -/

namespace Sys2Proof.Machine

/-- The buffer holds the frame of these fields (41_stream_parser.md R103). -/
def Memory.HoldsFrame (m : Memory) (f : Fields) : Prop :=
  Memory.wf m ∧ f.payload.length ≤ 255
    ∧ Memory.bytes m = buildFrame f.address f.command f.payload.length f.payload

/-- In `Complete` the buffer holds the frame of some fields. -/
theorem State.Inv.holdsFrame {s : State} (hinv : s.Inv) (hst : s.st = .complete) :
    ∃ f, Memory.HoldsFrame s.buf f := by
  obtain ⟨hwf, -, -, -, hcomplete⟩ := hinv
  obtain ⟨-, hvalid⟩ := hcomplete hst
  obtain ⟨addr, cmd, payload, hlen, hbytes⟩ := validFrame_iff_exists_buildFrame.1 hvalid
  exact ⟨⟨addr, cmd, payload⟩, hwf, hlen, hbytes⟩

section
variable {m : Memory} {f : Fields}

theorem Memory.HoldsFrame.decodeFields (h : Memory.HoldsFrame m f) :
    decodeFields (Memory.bytes m) = some f := by
  obtain ⟨-, hlen, hbytes⟩ := h
  rw [hbytes, decodeFields_buildFrame _ _ hlen]

theorem Memory.HoldsFrame.blen_eq (h : Memory.HoldsFrame m f) : Memory.blen m = 7 + f.payload.length := by
  obtain ⟨-, -, hbytes⟩ := h
  rw [← Memory.bytes_length, hbytes, buildFrame_length]

theorem Memory.HoldsFrame.read_address (h : Memory.HoldsFrame m f) : Memory.read m 1 = some f.address := by
  obtain ⟨hwf, -, hbytes⟩ := h
  rw [Memory.read_eq_bytes hwf, hbytes]
  rfl

theorem Memory.HoldsFrame.read_command (h : Memory.HoldsFrame m f) : Memory.read m 2 = some f.command := by
  obtain ⟨hwf, -, hbytes⟩ := h
  rw [Memory.read_eq_bytes hwf, hbytes]
  rfl

theorem Memory.HoldsFrame.read_len (h : Memory.HoldsFrame m f) :
    Memory.read m 3 = some (BitVec.ofNat 8 f.payload.length) := by
  obtain ⟨hwf, -, hbytes⟩ := h
  rw [Memory.read_eq_bytes hwf, hbytes]
  rfl

theorem Memory.HoldsFrame.toNat_len (h : Memory.HoldsFrame m f) :
    (BitVec.ofNat 8 f.payload.length).toNat = f.payload.length := by
  obtain ⟨-, hlen, -⟩ := h
  exact toNat_length_byte hlen

theorem Memory.HoldsFrame.payload (h : Memory.HoldsFrame m f) :
    ((Memory.bytes m).drop 4).take f.payload.length = f.payload := by
  obtain ⟨-, -, hbytes⟩ := h
  simp [hbytes, buildFrame_eq_wireBytes, wireBytes]

/-- `TAKE` reads the fields of the buffered frame (41_stream_parser.md R98). -/
theorem Memory.HoldsFrame.readFields (h : Memory.HoldsFrame m f) : readFields m = .ok f := by
  obtain ⟨hwf, -⟩ := id h
  have hsize : 4 + (BitVec.ofNat 8 f.payload.length).toNat ≤ Memory.blen m := by
    rw [h.toNat_len, h.blen_eq]
    omega
  rw [readFields_eq_ok hwf h.read_address h.read_command h.read_len hsize, h.toNat_len, h.payload]

end

/-- `TAKE` in `Complete` returns the fields of the buffered frame (41_stream_parser.md R98). -/
theorem exec_take_of_complete {s : State} {f : Fields} (hst : s.st = .complete)
    (hframe : Memory.HoldsFrame s.buf f) :
    exec .take s = .next (deliver false (.fields f) (resync s)) :=
  execTake_eq_next.2 (.inl ⟨hst, f, hframe.readFields, rfl⟩)

/-- `TAKE_RAW` in `Complete` returns the buffered bytes (41_stream_parser.md R99). -/
theorem exec_takeRaw_of_complete {s : State} (hst : s.st = .complete) :
    exec .takeRaw s = .next (deliver false (.bytes (Memory.bytes s.buf)) (resync s)) :=
  execTakeRaw_eq_next.2 (.inl ⟨hst, rfl⟩)

/-- Settles O28: the fields of the frame that the buffer holds. -/
theorem takeReturnsFields : Obligations.TakeReturnsFields := by
  unfold Obligations.TakeReturnsFields
  intro s hinv hst
  obtain ⟨f, hframe⟩ := hinv.holdsFrame hst
  exact ⟨f, hframe.decodeFields, exec_take_of_complete hst hframe⟩

/-- Settles O29: the buffered bytes, and the invariant's clause about them. -/
theorem takeRawReturnsFrame : Obligations.TakeRawReturnsFrame := by
  unfold Obligations.TakeRawReturnsFrame
  intro s hinv hst
  obtain ⟨-, -, -, -, hcomplete⟩ := hinv
  obtain ⟨-, hvalid⟩ := hcomplete hst
  exact ⟨exec_takeRaw_of_complete hst, hvalid⟩

/-- The payload view is the payload of the buffered frame (10_state.md R27). -/
theorem viewPayload_of_complete {s : State} {f : Fields} (hst : s.st = .complete)
    (hframe : Memory.HoldsFrame s.buf f) : viewPayload s = some f.payload := by
  rw [viewPayload, whenComplete_of_complete hst, hframe.read_len, Option.map_some, hframe.toNat_len]
  exact congrArg some hframe.payload

/-- Outside `Complete` no view has a value (10_state.md R27). -/
theorem whenComplete_of_not_complete {α : Type} {s : State} (hst : s.st ≠ .complete) (v : Option α) :
    whenComplete s v = none := by
  simp [whenComplete, viewComplete, hst]

/-- Settles O34: the views of the frame that the buffer holds, and their absence outside `Complete`. -/
theorem viewsShowCompletedFrame : Obligations.ViewsShowCompletedFrame := by
  unfold Obligations.ViewsShowCompletedFrame
  refine ⟨fun s hinv hst => ?shown, fun s hst => ?absent⟩
  case shown =>
    obtain ⟨f, hframe⟩ := hinv.holdsFrame hst
    exact ⟨by simp [viewComplete, hst], viewRaw_of_complete hst, f, hframe.decodeFields,
      (viewAddr_of_complete hst).trans hframe.read_address, (viewCmd_of_complete hst).trans hframe.read_command,
      (viewLen_of_complete hst).trans hframe.read_len, viewPayload_of_complete hst hframe⟩
  case absent =>
    exact ⟨by simp [viewComplete, hst], whenComplete_of_not_complete hst _, whenComplete_of_not_complete hst _,
      whenComplete_of_not_complete hst _, whenComplete_of_not_complete hst _, whenComplete_of_not_complete hst _⟩

/-- Settles O42: the counters in each mode. -/
theorem invariantBoundsCounters : Obligations.InvariantBoundsCounters := by
  unfold Obligations.InvariantBoundsCounters
  intro s hinv
  have hcap : Memory.blen s.buf ≤ 262 := by
    obtain ⟨⟨-, hle⟩, -⟩ := hinv
    exact hle
  have hlenByte := lenByte_le s.buf
  cases hst : s.st with
  | seekingStart =>
    obtain ⟨-, hseeking, -⟩ := hinv
    obtain ⟨-, hneed⟩ := hseeking hst
    simp [hcap, hneed]
  | readingHeader =>
    have hsum := hinv.blen_add_need_of_header hst
    have hpos := hinv.need_pos (.inl hst)
    refine ⟨hcap, by omega, ?_, fun _ => hsum, by simp⟩
    simp; omega
  | readingPayloadAndFooter =>
    have hsum := hinv.blen_add_need_of_payload hst
    have hpos := hinv.need_pos (.inr hst)
    have hge := hinv.four_le_blen hst
    obtain ⟨len, hlen⟩ := hinv.read_len_of_payload hst
    refine ⟨hcap, by omega, ?_, by simp, fun _ => ⟨len, hlen, ?_⟩⟩
    · simp; omega
    · rw [hsum, lenByte_of_read hlen]
  | complete =>
    obtain ⟨f, hframe⟩ := hinv.holdsFrame hst
    obtain ⟨-, -, -, -, hcomplete⟩ := hinv
    obtain ⟨hneed, -⟩ := hcomplete hst
    refine ⟨hcap, by omega, by simp [hneed], by simp, fun _ => ⟨_, hframe.read_len, ?_⟩⟩
    rw [hneed, hframe.toNat_len, hframe.blen_eq, Nat.add_zero]

/-- While a frame is read, `PUSH` stores its byte behind the buffered ones or drops them all
(41_stream_parser.md R111). -/
theorem buf_of_exec_push_of_reading {b : Byte} {s t : State} (hread : s.reading)
    (h : exec (.push b) s = .next t) :
    (t.st ≠ .seekingStart ∧ Memory.blen s.buf < Config.BUF_CAP ∧ t.buf = (accumulated b s).buf)
      ∨ (t.st = .seekingStart ∧ t.buf = []) := by
  obtain ⟨hst, -⟩ | ⟨hst, -, -, hroom, rfl⟩ | ⟨-, -, hroom, len, -, rfl⟩ | ⟨-, -, hroom, -, rfl⟩ |
    ⟨-, -, -, rfl⟩ | ⟨hst, -⟩ := exec_push_cases h
  case inl => simp [State.reading, hst] at hread
  case inr.inl =>
    refine .inl ⟨?_, hroom, rfl⟩
    rcases hst with hst | hst <;> simp [hst]
  case inr.inr.inl => exact .inl ⟨by simp, hroom, rfl⟩
  case inr.inr.inr.inl => exact .inl ⟨by simp, hroom, rfl⟩
  case inr.inr.inr.inr.inl => exact .inr ⟨rfl, rfl⟩
  case inr.inr.inr.inr.inr => simp [State.reading, hst] at hread

/-- Settles O26: one clause for each kind of answer. -/
theorem pushMemoryFrame : Obligations.PushMemoryFrame := by
  unfold Obligations.PushMemoryFrame
  intro b s t hinv h
  refine ⟨?discarded, ?started, ?stored, ?dropped, ?lost⟩
  case discarded =>
    rintro ⟨hst, hb⟩ a
    rw [exec_push_of_seeking hst, seek_of_ne hb] at h
    rw [← Host.Outcome.next.inj h, deliver_buf]
  case started =>
    rintro ⟨hst, rfl⟩
    obtain ⟨-, hseeking, -⟩ := hinv
    obtain ⟨hbuf, -⟩ := hseeking hst
    rw [exec_push_of_seeking hst, seek_stx] at h
    rw [← Host.Outcome.next.inj h, deliver_buf, startFrame_buf, hbuf]
    exact ⟨read_single_zero _, fun a ha => read_single_of_ne _ ha⟩
  case stored =>
    intro hread hst
    obtain ⟨-, hroom, hbuf⟩ | ⟨hseeking, -⟩ := buf_of_exec_push_of_reading hread h
    · obtain ⟨hwf, -⟩ := hinv
      rw [hbuf]
      exact ⟨Memory.read_concat_self hwf hroom b, fun a ha => Memory.read_concat_of_ne hwf hroom b ha⟩
    · exact absurd hseeking hst
  case dropped =>
    intro hread hst a
    obtain ⟨hne, -⟩ | ⟨-, hbuf⟩ := buf_of_exec_push_of_reading (.inr hread) h
    · exact absurd hst hne
    · rw [hbuf, read_nil]
  case lost =>
    intro hst
    rw [exec_push_of_complete hst, pushComplete_eq] at h
    rw [← Host.Outcome.next.inj h, deliver_buf]
    split
    case isTrue hb =>
      obtain ⟨-, rfl⟩ := hb
      exact ⟨read_single_zero _, fun a ha => read_single_of_ne _ ha⟩
    case isFalse => exact read_nil

end Sys2Proof.Machine
end

section
/-! Progress (10_state.md R30): from a state with the invariant every well-formed operation answers, a dutiful caller is
answered with `OK`, and the answers are the rows of the transition table (41_stream_parser.md R110). -/

namespace Sys2Proof.Machine

/-- From a state with the invariant every well-formed operation answers. -/
theorem exec_answers {i : Instr} {s : State} (hinv : s.Inv) (hi : i.wellFormed = true) :
    ∃ t, exec i s = .next t := by
  cases i with
  | reset => exact ⟨_, exec_reset s⟩
  | push b => exact exec_push_answers hinv b
  | take =>
    by_cases hst : s.st = .complete
    · obtain ⟨f, hframe⟩ := hinv.holdsFrame hst
      exact ⟨_, exec_take_of_complete hst hframe⟩
    · exact ⟨_, exec_take_of_not_complete hst⟩
  | takeRaw =>
    by_cases hst : s.st = .complete
    · exact ⟨_, exec_takeRaw_of_complete hst⟩
    · exact ⟨_, exec_takeRaw_of_not_complete hst⟩
  | encode addr cmd plen pdata =>
    obtain rfl : plen = pdata.length := by simpa [Instr.wellFormed] using hi
    rcases le_or_gt pdata.length 255 with hlen | hlen
    · exact ⟨_, exec_encode_of_le addr cmd hlen s⟩
    · exact ⟨_, exec_encode_of_lt addr cmd hlen pdata s⟩

/-- A well-formed operand port decodes to a well-formed operation (40_frame_builder.md R80). -/
theorem wellFormed_of_decode {r : Request} {i : Instr} (hport : r.port.wellFormed = true)
    (h : decode r = .ok i) : i.wellFormed = true := by
  obtain ⟨-, rfl⟩ | ⟨-, rfl⟩ | ⟨-, rfl⟩ | ⟨-, rfl⟩ | ⟨-, rfl⟩ := decode_eq_ok.1 h
  case inr.inr.inr.inr => exact hport
  all_goals rfl

/-- Settles O41: a step with nothing issued, with a decoded operation, with a rejected word. -/
theorem stepNeverStops : Obligations.StepNeverStops := by
  unfold Obligations.StepNeverStops
  intro s hinv hports
  cases hqueue : s.queue with
  | nil => exact ⟨s, step_of_queue_eq_nil hqueue, hports⟩
  | cons r rest =>
    have hrest : ∀ x ∈ rest, x.port.wellFormed = true := fun x hx =>
      hports x (hqueue ▸ List.mem_cons_of_mem r hx)
    cases hdecode : decode r with
    | ok i =>
      have hissued : State.Inv { s with queue := rest } := hinv
      have hport : r.port.wellFormed = true := hports r (hqueue ▸ List.mem_cons_self)
      obtain ⟨t, h⟩ := exec_answers hissued (wellFormed_of_decode hport hdecode)
      refine ⟨t, (step_of_decode_eq_ok hqueue hdecode).trans h, ?_⟩
      rw [State.queueWellFormed, exec_queue h]
      exact hrest
    | error e => exact ⟨_, step_of_decode_eq_error hqueue hdecode, hrest⟩

/-- A caller that keeps its duties meets no error (70_reset_and_hazards.md R164, R165). -/
theorem errorCode_of_callerDuty {i : Instr} {s : State} (h : callerDuty i s = true) :
    errorCode s i = .ok := by
  cases i with
  | reset => rfl
  | push b => rfl
  | take => simpa [callerDuty, viewComplete, errorCode] using h
  | takeRaw => simpa [callerDuty, viewComplete, errorCode] using h
  | encode addr cmd plen pdata =>
    have hfits : plen ≤ 255 := of_decide_eq_true h
    simp [errorCode, hfits.not_gt]

/-- Settles O49: the operation answers, and its code is `OK`. -/
theorem dutifulOperationSucceeds : Obligations.DutifulOperationSucceeds := by
  unfold Obligations.DutifulOperationSucceeds
  intro i s hinv hi hduty
  obtain ⟨t, h⟩ := exec_answers hinv hi
  have hcode := errorCode_of_callerDuty hduty
  obtain ⟨-, hmark⟩ := exec_interface_of_ok h hcode
  exact ⟨t, h, (exec_endedWith_iff h _).2 hcode, hmark⟩

/-- `PUSH` follows its rows of the table (41_stream_parser.md R110). -/
theorem exec_push_follows_pushRow {b : Byte} {s t : State} (hinv : s.Inv) (h : exec (.push b) s = .next t) :
    ∃ row, pushRow Config.completePush b s.triple = some row ∧ t.triple = row.after
      ∧ t.result = some ⟨row.err, row.frameReady, .none⟩ := by
  obtain ⟨hst, rfl⟩ | ⟨hst, hneed, rfl⟩ | ⟨hst, hneed, rfl⟩ | ⟨hst, hneed, htail, rfl⟩ |
    ⟨hst, hneed, htail, rfl⟩ | ⟨hst, rfl⟩ := exec_push_cases_of_inv hinv h
  case inl =>
    by_cases hb : b = 0x02
    · exact ⟨⟨ParserTriple.started, false, .ok⟩, by simp [pushRow, State.triple, hst, hb],
        by rw [hb, seek_stx]; rfl, rfl⟩
    · refine ⟨⟨s.triple, false, .ok⟩, ?_, by rw [seek_of_ne hb]; rfl, rfl⟩
      simp only [pushRow, State.triple, hst]
      exact if_neg hb
  case inr.inl =>
    refine ⟨⟨⟨s.st, s.need - 1, Memory.bytes s.buf ++ [b]⟩, false, .ok⟩, ?_, by simp [State.triple], rfl⟩
    rcases hst with hst | hst
    · simp [pushRow, State.triple, hst, hneed]
    · simp [pushRow, State.triple, hst, hneed]
  case inr.inr.inl =>
    exact ⟨⟨⟨.readingPayloadAndFooter, b.toNat + 3, Memory.bytes s.buf ++ [b]⟩, false, .ok⟩,
      by simp [pushRow, State.triple, hst, hneed], by simp [State.triple], rfl⟩
  case inr.inr.inr.inl =>
    have hzero : (frameKept b s).need = 0 := by
      obtain ⟨-, -, -, -, hcomplete⟩ := State.inv_frameKept hinv hst hneed htail
      obtain ⟨hzero, -⟩ := hcomplete rfl
      exact hzero
    exact ⟨⟨⟨.complete, 0, Memory.bytes s.buf ++ [b]⟩, true, .ok⟩,
      by simp [pushRow, State.triple, hst, hneed, htail], by simp [State.triple, hzero], rfl⟩
  case inr.inr.inr.inr.inl =>
    exact ⟨⟨ParserTriple.reset, false, .ok⟩, by simp [pushRow, State.triple, hst, hneed, htail], rfl, rfl⟩
  case inr.inr.inr.inr.inr =>
    rw [pushComplete_eq]
    by_cases hb : Config.completePush = .reprocess ∧ b = 0x02
    · exact ⟨⟨ParserTriple.started, false, .ok⟩, by simp [pushRow, State.triple, hst, hb],
        by rw [if_pos hb]; rfl, rfl⟩
    · refine ⟨⟨ParserTriple.reset, false, .ok⟩, ?_, by rw [if_neg hb]; rfl, rfl⟩
      simp only [pushRow, State.triple, hst]
      exact if_neg hb

/-- The two extractions follow their rows of the table, in which only `TAKE`'s data differs from `TAKE_RAW`'s. -/
theorem extraction_follows_extractRow {i : Instr} {s t : State} (hi : i = .take ∨ i = .takeRaw)
    (h : exec i s = .next t) :
    ∃ r, t.triple = (extractRow s.triple).after ∧ t.result = some r
      ∧ r.frameReady = (extractRow s.triple).frameReady ∧ r.err = (extractRow s.triple).err := by
  by_cases hst : s.st = .complete
  · have hrow : extractRow s.triple = ⟨ParserTriple.reset, false, .ok⟩ := if_pos hst
    have hcode : errorCode s i = .ok := by obtain rfl | rfl := hi <;> simp [errorCode, hst]
    obtain ⟨hseeking, hneed, hbuf⟩ := parserReset_of_extraction hi hst h
    obtain ⟨e, d, hresult⟩ := exec_result_of_not_push (by obtain rfl | rfl := hi <;> simp) h
    have herr : t.endedWith .ok := (exec_endedWith_iff h _).2 hcode
    rw [hrow]
    exact ⟨_, by simp [State.triple, hseeking, hneed, hbuf, ParserTriple.reset], hresult, rfl,
      (State.endedWith_iff_of_result hresult _).1 herr⟩
  · have hrow : extractRow s.triple = ⟨s.triple, false, .notReady⟩ := if_neg hst
    obtain rfl := Host.Outcome.next.inj ((exec_extraction_of_not_complete hi hst).symm.trans h)
    rw [hrow]
    exact ⟨_, rfl, raiseError_result _ _, rfl, rfl⟩

/-- Settles O43: the rows of `RESET`, of `PUSH` and of the two extractions. -/
theorem meaningsFollowTransitionTable : Obligations.MeaningsFollowTransitionTable := by
  unfold Obligations.MeaningsFollowTransitionTable
  intro i s hinv hi
  cases i with
  | reset => exact ⟨_, _, _, exec_reset s, rfl, rfl, rfl, rfl, rfl⟩
  | push b =>
    obtain ⟨t, h⟩ := exec_push_answers hinv b
    obtain ⟨row, hrow, hafter, hresult⟩ := exec_push_follows_pushRow hinv h
    exact ⟨t, row, _, h, hrow, hafter, hresult, rfl, rfl⟩
  | take =>
    obtain ⟨t, h⟩ := exec_answers (i := .take) hinv rfl
    obtain ⟨r, hafter, hresult, hready, herr⟩ := extraction_follows_extractRow (.inl rfl) h
    exact ⟨t, _, r, h, rfl, hafter, hresult, hready, herr⟩
  | takeRaw =>
    obtain ⟨t, h⟩ := exec_answers (i := .takeRaw) hinv rfl
    obtain ⟨r, hafter, hresult, hready, herr⟩ := extraction_follows_extractRow (.inr rfl) h
    exact ⟨t, _, r, h, rfl, hafter, hresult, hready, herr⟩
  | encode addr cmd plen pdata => exact absurd rfl (hi addr cmd plen pdata)

end Sys2Proof.Machine
end

section
/-! Sequences of operations (30_encoding.md R74): equal parsers behave alike, bytes without `STX` pass unnoticed, a parser
waits while it needs more bytes, and the last byte of a frame decides (41_stream_parser.md R104 to R106). -/

namespace Sys2Proof.Machine

/-- Equal parsers answer every sequence of operations alike (20_memory.md R46). -/
theorem performAll_sameParser (ops : List Instr) :
    ∀ {s s' t : State} {rs : List Result}, s.sameParser s' → performAll ops s = some (rs, t) →
      ∃ t', performAll ops s' = some (rs, t') ∧ t.sameParser t' := by
  induction ops with
  | nil =>
    intro s s' t rs hsame h
    obtain ⟨rfl, rfl⟩ : [] = rs ∧ s = t := by simpa [performAll] using h
    exact ⟨s', rfl, hsame⟩
  | cons i ops ih =>
    intro s s' t rs hsame h
    obtain ⟨r, u, rest, hi, hops, rfl⟩ := performAll_cons_eq_some.1 h
    obtain ⟨u', hi', hu⟩ := perform_sameParser hsame hi
    obtain ⟨t', hops', ht⟩ := ih hu hops
    exact ⟨t', performAll_cons_eq_some.2 ⟨r, u', rest, hi', hops', rfl⟩, ht⟩

/-- Equal parsers report the same of every sequence of bytes (20_memory.md R46). -/
theorem pushN_sameParser (bs : List Byte) :
    ∀ {s s' t : State} {flags : List Bool}, s.sameParser s' → pushN bs s = some (flags, t) →
      ∃ t', pushN bs s' = some (flags, t') ∧ t.sameParser t' := by
  induction bs with
  | nil =>
    intro s s' t flags hsame h
    obtain ⟨rfl, rfl⟩ : [] = flags ∧ s = t := by simpa [pushN] using h
    exact ⟨s', rfl, hsame⟩
  | cons b bs ih =>
    intro s s' t flags hsame h
    obtain ⟨r, u, rest, hb, hbs, rfl⟩ := pushN_cons_eq_some.1 h
    obtain ⟨u', hb', hu⟩ := perform_sameParser hsame hb
    obtain ⟨t', hbs', ht⟩ := ih hu hbs
    exact ⟨t', pushN_cons_eq_some.2 ⟨r, u', rest, hb', hbs', rfl⟩, ht⟩

/-- Settles O48: the two kinds of sequence, and the failed operation as one that keeps the parser. -/
theorem equalParsersBehaveAlike : Obligations.EqualParsersBehaveAlike := by
  unfold Obligations.EqualParsersBehaveAlike
  refine ⟨fun ops s s' t rs hsame h => performAll_sameParser ops hsame h,
    fun bs s s' t flags hsame h => pushN_sameParser bs hsame h, ?failed⟩
  case failed =>
    intro i ops s failed t e rs hi hended he h
    obtain ⟨hsame, -⟩ := failedOperationWritesNothing i s failed e hi hended he
    exact performAll_sameParser ops hsame h

/-- A `PUSH` that answers, with the result it reports. -/
theorem perform_push {b : Byte} {s t : State} (h : exec (.push b) s = .next t) :
    perform (.push b) s = some (⟨.ok, completesFrame b s, .none⟩, t) :=
  perform_eq_some.2 ⟨h, exec_push_result h⟩

/-- The bytes are pushed one by one, and none of them reports a frame. -/
def PushesSilently (bs : List Byte) (s t : State) : Prop :=
  pushN bs s = some (List.replicate bs.length false, t)

theorem pushesSilently_nil (s : State) : PushesSilently [] s s := rfl

theorem pushesSilently_cons {b : Byte} {bs : List Byte} {s t u : State} (h : exec (.push b) s = .next t)
    (hnot : completesFrame b s = false) (hbs : PushesSilently bs t u) : PushesSilently (b :: bs) s u := by
  have hpush := perform_push h
  rw [hnot] at hpush
  exact pushN_cons_eq_some.2 ⟨_, t, _, hpush, hbs, rfl⟩

/-- Bytes pushed after silent ones report as they would alone. -/
theorem pushN_append_of_silent {bs cs : List Byte} {t u : State} {flags : List Bool}
    (hcs : pushN cs t = some (flags, u)) :
    ∀ {s : State}, PushesSilently bs s t →
      pushN (bs ++ cs) s = some (List.replicate bs.length false ++ flags, u) := by
  induction bs with
  | nil =>
    intro s hbs
    obtain rfl : s = t := by simpa [PushesSilently, pushN] using hbs
    exact hcs
  | cons b bs ih =>
    intro s hbs
    obtain ⟨r, v, rest, hb, hrest, hflags⟩ := pushN_cons_eq_some.1 hbs
    obtain ⟨hr, rfl⟩ : false = r.frameReady ∧ List.replicate bs.length false = rest := by
      simpa [List.replicate_succ] using hflags
    rw [List.cons_append, pushN_cons_eq_some]
    exact ⟨r, v, _, hb, ih hrest, by rw [← hr]; rfl⟩

theorem PushesSilently.append {bs cs : List Byte} {s t u : State} (hbs : PushesSilently bs s t)
    (hcs : PushesSilently cs t u) : PushesSilently (bs ++ cs) s u := by
  rw [PushesSilently, pushN_append_of_silent hcs hbs, List.length_append, List.replicate_add]

/-- Bytes without `STX` leave a seeking parser as it was (41_stream_parser.md R92). -/
theorem exists_pushesSilently_garbage (g : List Byte) :
    ∀ {s : State}, 0x02 ∉ g → s.parserReset → ∃ t, PushesSilently g s t ∧ t.parserReset := by
  induction g with
  | nil => exact fun {s} _ hreset => ⟨s, pushesSilently_nil s, hreset⟩
  | cons b g ih =>
    intro s hg hreset
    obtain ⟨hb, hg⟩ : b ≠ 0x02 ∧ 0x02 ∉ g := by simpa [eq_comm] using hg
    obtain ⟨hst, hneed, hbuf⟩ := hreset
    have hpush : exec (.push b) s = .next (deliver false .none s) := by
      rw [exec_push_of_seeking hst, seek_of_ne hb]
    obtain ⟨t, ht, htreset⟩ := ih (s := deliver false .none s) hg ⟨hst, hneed, hbuf⟩
    exact ⟨t, pushesSilently_cons hpush (completesFrame_of_st_ne (by simp [hst]) b) ht, htreset⟩

/-- While fewer than `need` bytes are pushed the parser only accumulates them (41_stream_parser.md R106). -/
theorem exists_pushesSilently_waiting (bs : List Byte) :
    ∀ {s : State}, s.Inv → s.reading → bs.length < s.need →
      ∃ t, PushesSilently bs s t ∧ t.Inv ∧ t.st = s.st ∧ t.need = s.need - bs.length
        ∧ Memory.bytes t.buf = Memory.bytes s.buf ++ bs := by
  induction bs with
  | nil => exact fun {s} hinv _ _ => ⟨s, pushesSilently_nil s, hinv, rfl, rfl, (List.append_nil _).symm⟩
  | cons b bs ih =>
    intro s hinv hread hlen
    rw [List.length_cons] at hlen
    have hneed : 1 < s.need := by omega
    have hpush := exec_push_of_one_lt_need hinv hread hneed b
    obtain ⟨t, ht, htinv, hst, htneed, hbytes⟩ :=
      ih (s := deliver false .none (accumulated b s)) (inv_of_exec_push hinv hpush) hread
        (by simp only [deliver_need, accumulated_need]; omega)
    refine ⟨t, pushesSilently_cons hpush (completesFrame_of_need_ne hneed.ne' b) ht, htinv, hst, ?_, ?_⟩
    · simp only [htneed, deliver_need, accumulated_need, List.length_cons]; omega
    · simp [hbytes]

/-- Settles O47: the state after the bytes pushed so far. -/
theorem parserWaitsForNeededBytes : Obligations.ParserWaitsForNeededBytes := by
  unfold Obligations.ParserWaitsForNeededBytes
  intro bs s hinv hread hlen
  obtain ⟨t, ht, -, hst, hneed, hbytes⟩ := exists_pushesSilently_waiting bs hinv hread hlen
  exact ⟨t, ht, hst, hneed, hbytes⟩

/-- One byte short of a whole frame: the given bytes are buffered, and the next one completes the frame. -/
def State.lastByteMissing (s : State) (body : List Byte) : Prop :=
  s.Inv ∧ s.st = .readingPayloadAndFooter ∧ s.need = 1 ∧ Memory.bytes s.buf = body

/-- A parser in its reset state has buffered a header after its four bytes (41_stream_parser.md R92, R93). -/
theorem exists_pushesSilently_header {s : State} (hreset : s.parserReset) (a c l : Byte) :
    ∃ t, PushesSilently [0x02, a, c, l] s t ∧ t.Inv ∧ t.st = .readingPayloadAndFooter
      ∧ t.need = l.toNat + 3 ∧ Memory.bytes t.buf = [0x02, a, c, l] := by
  obtain ⟨hst, -⟩ := id hreset
  have hstart : exec (.push 0x02) s = .next (deliver false .none (startFrame s)) :=
    exec_push_of_seeking hst 0x02
  obtain ⟨t, ht, hinv, htst, hneed, hbytes⟩ :=
    exists_pushesSilently_waiting [a, c] (s := deliver false .none (startFrame s))
      (inv_of_exec_push (State.inv_of_parserReset hreset) hstart) (.inl rfl) (by simp)
  have hlen := exec_push_of_header_completed hinv htst hneed l
  have hnot : completesFrame l t = false := completesFrame_of_st_ne (by simp [htst]) l
  refine ⟨_, pushesSilently_cons hstart (completesFrame_of_st_ne (by simp [hst]) _)
      (ht.append (pushesSilently_cons hlen hnot (pushesSilently_nil _))),
    inv_of_exec_push hinv hlen, rfl, rfl, ?_⟩
  have hheader : Memory.bytes t.buf = [0x02, a, c] := hbytes
  simp [hheader]

/-- A parser in its reset state takes in all bytes but the last of a sequence with an intact length byte. -/
theorem exists_pushesSilently_body {s : State} (hreset : s.parserReset) (a c e x : Byte) {l : Byte}
    {payload : List Byte} (hlen : payload.length = l.toNat) :
    ∃ t, PushesSilently ([0x02, a, c, l] ++ payload ++ [e, x]) s t
      ∧ t.lastByteMissing ([0x02, a, c, l] ++ payload ++ [e, x]) := by
  obtain ⟨u, hu, huinv, hust, huneed, hubytes⟩ := exists_pushesSilently_header hreset a c l
  obtain ⟨t, ht, hinv, hst, hneed, hbytes⟩ :=
    exists_pushesSilently_waiting (payload ++ [e, x]) huinv (.inr hust) (by simp [huneed, hlen])
  rw [List.append_assoc]
  refine ⟨t, hu.append ht, hinv, hst.trans hust, ?_, by rw [hbytes, hubytes]⟩
  simp [hneed, huneed, hlen]

/-- A valid frame after bytes without `STX`: before its last byte no frame is reported, and it alone is buffered
(41_stream_parser.md R104). -/
theorem exists_pushesSilently_all_but_last {g f : List Byte} {s : State} (hg : 0x02 ∉ g)
    (hvalid : validFrame f = true) (hreset : s.parserReset) :
    ∃ body b t, f = body ++ [b] ∧ PushesSilently (g ++ body) s t ∧ t.lastByteMissing body := by
  obtain ⟨a, c, l, payload, e, x, r, hlen, rfl⟩ := exists_wireBytes_of_validFrame hvalid
  obtain ⟨u, hu, hureset⟩ := exists_pushesSilently_garbage g hg hreset
  obtain ⟨t, ht, hlast⟩ := exists_pushesSilently_body hureset a c e x hlen
  exact ⟨_, r, t, by simp [wireBytes], hu.append ht, hlast⟩

section
variable {s : State} {body : List Byte} {b : Byte}

/-- The tail check decides whether the last byte completes the frame (41_stream_parser.md R100). -/
theorem completesFrame_of_lastByteMissing (h : s.lastByteMissing body) (b : Byte) :
    completesFrame b s = tailOk (body ++ [b]) := by
  obtain ⟨-, hst, hneed, rfl⟩ := h
  exact completesFrame_of_need_one hst hneed b

/-- The last byte of a frame decides its validity (41_stream_parser.md R100). -/
theorem validFrame_iff_of_lastByteMissing (h : s.lastByteMissing body) :
    validFrame (body ++ [b]) = true ↔ tailOk (body ++ [b]) = true := by
  obtain ⟨hinv, hst, hneed, rfl⟩ := h
  exact validFrame_iff_tailOk_of_frame_completed hinv hst hneed b

/-- The last byte of a valid frame completes it (41_stream_parser.md R95). -/
theorem exec_push_last_of_valid (h : s.lastByteMissing body) (hvalid : validFrame (body ++ [b]) = true) :
    exec (.push b) s = .next (frameKept b s) := by
  have htail := (validFrame_iff_of_lastByteMissing h).1 hvalid
  obtain ⟨hinv, hst, hneed, rfl⟩ := h
  exact exec_push_of_tailOk hinv hst hneed htail

theorem completesFrame_of_valid (h : s.lastByteMissing body) (hvalid : validFrame (body ++ [b]) = true) :
    completesFrame b s = true :=
  (completesFrame_of_lastByteMissing h b).trans ((validFrame_iff_of_lastByteMissing h).1 hvalid)

/-- The completed frame is what was pushed. -/
theorem bytes_frameKept (h : s.lastByteMissing body) : Memory.bytes (frameKept b s).buf = body ++ [b] := by
  obtain ⟨-, -, -, rfl⟩ := h
  rw [frameKept_buf, Memory.bytes_concat]

end

/-- Pushing a valid frame after bytes without `STX` reports it on its last byte and on no other, and the parser
then holds it alone (41_stream_parser.md R104). -/
theorem exists_pushN_frame {g f : List Byte} {s : State} (hg : 0x02 ∉ g) (hvalid : validFrame f = true)
    (hreset : s.parserReset) :
    ∃ t, pushN (g ++ f) s = some (List.replicate (g.length + f.length - 1) false ++ [true], t)
      ∧ t.Inv ∧ t.st = .complete ∧ Memory.bytes t.buf = f := by
  obtain ⟨body, b, u, rfl, hbody, hlast⟩ := exists_pushesSilently_all_but_last hg hvalid hreset
  have hpush := exec_push_last_of_valid hlast hvalid
  have hflag : pushN [b] u = some ([true], frameKept b u) :=
    pushN_cons_eq_some.2 ⟨_, _, [], perform_push hpush, rfl, by rw [completesFrame_of_valid hlast hvalid]⟩
  refine ⟨frameKept b u, ?_, ?_, rfl, bytes_frameKept hlast⟩
  · rw [← List.append_assoc, pushN_append_of_silent hflag hbody]
    simp
  · obtain ⟨hinv, -⟩ := hlast
    exact inv_of_exec_push hinv hpush

/-- `TAKE_RAW` returns the completed frame and clears the parser (41_stream_parser.md R99). -/
theorem perform_takeRaw_of_complete {s : State} (hst : s.st = .complete) :
    perform .takeRaw s = some (⟨.ok, false, .bytes (Memory.bytes s.buf)⟩,
      deliver false (.bytes (Memory.bytes s.buf)) (resync s)) :=
  perform_eq_some.2 ⟨exec_takeRaw_of_complete hst, rfl⟩

/-- `TAKE` returns the fields of the completed frame and clears the parser (41_stream_parser.md R98). -/
theorem perform_take_of_complete {s : State} (hinv : s.Inv) (hst : s.st = .complete) {f : Fields}
    (hf : decodeFields (Memory.bytes s.buf) = some f) :
    perform .take s = some (⟨.ok, false, .fields f⟩, deliver false (.fields f) (resync s)) := by
  obtain ⟨f', hframe⟩ := hinv.holdsFrame hst
  obtain rfl : f' = f := Option.some.inj (hframe.decodeFields.symm.trans hf)
  exact perform_eq_some.2 ⟨exec_take_of_complete hst hframe, rfl⟩

/-- Settles O44: the report of the frame, then its raw extraction. -/
theorem validFrameDetectedAfterGarbage : Obligations.ValidFrameDetectedAfterGarbage := by
  unfold Obligations.ValidFrameDetectedAfterGarbage
  intro g f s hg hvalid hreset
  obtain ⟨t, ht, -, hst, rfl⟩ := exists_pushN_frame hg hvalid hreset
  refine ⟨t, _, ht, perform_takeRaw_of_complete hst, ?_⟩
  exact ⟨rfl, rfl, rfl⟩

/-- Settles O45: all bytes but the last, then the failed tail check. -/
theorem malformedFrameDroppedInSilence : Obligations.MalformedFrameDroppedInSilence := by
  unfold Obligations.MalformedFrameDroppedInSilence
  intro bad len s hstx hlen hsize htail hreset
  obtain ⟨a, c, payload, e, x, r, hpayload, rfl⟩ := exists_wireBytes hstx hlen hsize
  obtain ⟨t, ht, hlast⟩ := exists_pushesSilently_body hreset a c e x hpayload
  have hsplit : wireBytes a c len payload e x r = ([0x02, a, c, len] ++ payload ++ [e, x]) ++ [r] := by
    simp [wireBytes]
  rw [hsplit] at htail ⊢
  have hnot : completesFrame r t = false := (completesFrame_of_lastByteMissing hlast r).trans htail
  obtain ⟨hinv, hst, hneed, hbytes⟩ := hlast
  have hpush := exec_push_of_not_tailOk hinv hst hneed (hbytes ▸ htail)
  exact ⟨_, ht.append (pushesSilently_cons hpush hnot (pushesSilently_nil _)), rfl, rfl, rfl⟩

/-- `DECODE` of a valid frame returns its fields (30_encoding.md R74). -/
theorem exists_decodeFrame {f : List Byte} {r : Fields} (hvalid : validFrame f = true)
    (hr : decodeFields f = some r) (s : State) :
    ∃ u, decodeFrame f s = some (⟨.ok, false, .fields r⟩, u) ∧ u.parserReset := by
  obtain ⟨t, ht, hinv, hst, rfl⟩ :=
    exists_pushN_frame (s := deliver false .none (resync s)) List.not_mem_nil hvalid ⟨rfl, rfl, rfl⟩
  rw [List.nil_append] at ht
  refine ⟨deliver false (.fields r) (resync t), ?_, ⟨rfl, rfl, rfl⟩⟩
  simp only [decodeFrame, perform_reset, ht]
  exact perform_take_of_complete hinv hst hr

/-- Settles O46: the frame that `ENCODE` returns is valid, and its fields are the operands. -/
theorem wireRoundTrip : Obligations.WireRoundTrip := by
  unfold Obligations.WireRoundTrip
  intro addr cmd pdata s hlen
  obtain ⟨u, hu, hureset⟩ := exists_decodeFrame (validFrame_buildFrame addr cmd hlen)
    (decodeFields_buildFrame addr cmd hlen)
    (deliver false (.bytes (buildFrame addr cmd pdata.length pdata)) s)
  exact ⟨_, _, u, perform_eq_some.2 ⟨exec_encode_of_le addr cmd hlen s, rfl⟩, hu, hureset⟩

end Sys2Proof.Machine
end

section
/-! What one received byte does (42_client_environment.md R125), the second decoding (R127), and what a call owes its
caller however the Transport answers: each step of the receive loops keeps it. -/

namespace Sys2Proof.Machine

/-- What is buffered after a push is the end of what was buffered before it, with the byte. -/
theorem bytes_isSuffix_of_exec_push {b : Byte} {s t : State} (hinv : s.Inv) (h : exec (.push b) s = .next t) :
    Memory.bytes t.buf <:+ Memory.bytes s.buf ++ [b] := by
  obtain ⟨hst, rfl⟩ | ⟨-, -, rfl⟩ | ⟨-, -, rfl⟩ | ⟨-, -, -, rfl⟩ | ⟨-, -, -, rfl⟩ | ⟨-, rfl⟩ :=
    exec_push_cases_of_inv hinv h
  case inl =>
    by_cases hb : b = 0x02
    · rw [hb, seek_stx]
      exact List.suffix_append _ _
    · obtain ⟨-, hseeking, -⟩ := hinv
      obtain ⟨hbuf, -⟩ := hseeking hst
      rw [seek_of_ne hb, deliver_buf, hbuf]
      exact List.nil_suffix
  case inr.inr.inr.inr.inl => exact List.nil_suffix
  case inr.inr.inr.inr.inr =>
    rw [pushComplete_eq]
    split
    case isTrue hb =>
      obtain ⟨-, rfl⟩ := hb
      exact List.suffix_append _ _
    case isFalse => exact List.nil_suffix
  all_goals simp

/-- The last byte of a valid frame is answered with the frame, and the parser is cleared
(42_client_environment.md R125). -/
theorem exists_feedByte_frame {s : State} {body : List Byte} {b : Byte} (h : s.lastByteMissing body)
    (hvalid : validFrame (body ++ [b]) = true) :
    ∃ u, feedByte b s = .frame (body ++ [b]) u ∧ u.parserReset := by
  have htake := perform_takeRaw_of_complete (frameKept_st b s)
  rw [bytes_frameKept h] at htake
  exact ⟨_, feedByte_eq_frame.2 ⟨_, _, _, _, perform_push (exec_push_last_of_valid h hvalid),
    completesFrame_of_valid h hvalid, htake⟩, rfl, rfl, rfl⟩

/-- All that a received byte can do to a parser with the invariant: it goes on collecting the bytes received last,
or it completes a valid frame of them. The block does not stop. -/
theorem feedByte_cases {s : State} (hinv : s.Inv) (b : Byte) :
    (∃ t, feedByte b s = .more t ∧ t.Inv ∧ Memory.bytes t.buf <:+ Memory.bytes s.buf ++ [b])
      ∨ ∃ u, feedByte b s = .frame (Memory.bytes s.buf ++ [b]) u
          ∧ validFrame (Memory.bytes s.buf ++ [b]) = true ∧ u.parserReset := by
  cases hcompletes : completesFrame b s with
  | false =>
    obtain ⟨t, h⟩ := exec_push_answers hinv b
    exact .inl ⟨t, feedByte_eq_more.2 ⟨_, perform_push h, hcompletes⟩, inv_of_exec_push hinv h,
      bytes_isSuffix_of_exec_push hinv h⟩
  | true =>
    obtain ⟨hst, hneed, htail⟩ := completesFrame_iff.1 hcompletes
    have hlast : s.lastByteMissing (Memory.bytes s.buf) := ⟨hinv, hst, hneed, rfl⟩
    have hvalid := (validFrame_iff_of_lastByteMissing hlast).2 htail
    obtain ⟨u, hu, hreset⟩ := exists_feedByte_frame hlast hvalid
    exact .inr ⟨u, hu, hvalid, hreset⟩

/-- The second decoding of a valid frame gives its fields (42_client_environment.md R127). -/
theorem exists_replyOf {raw : List Byte} (hvalid : validFrame raw = true) :
    ∃ a c d, decodeFields raw = some ⟨a, c, d⟩ ∧ replyOf raw = .reply ⟨c, d, raw⟩ := by
  obtain ⟨a, c, d, hlen, hraw⟩ := validFrame_iff_exists_buildFrame.1 hvalid
  have hfields : decodeFields raw = some ⟨a, c, d⟩ := by rw [hraw, decodeFields_buildFrame a c hlen]
  obtain ⟨t, ht, hinv, hst, hbytes⟩ :=
    exists_pushN_frame (s := State.reset) List.not_mem_nil hvalid ⟨rfl, rfl, rfl⟩
  rw [List.nil_append] at ht
  refine ⟨a, c, d, hfields, ?_⟩
  simp only [replyOf, ht, perform_take_of_complete hinv hst (hbytes ▸ hfields)]

/-- What the caller may take from a reply, for a call whose parser has some bytes buffered and whose client has
handed `n` frames to the Transport: the reply is a valid frame (42_client_environment.md R127), its bytes are the
last ones received, each further frame sent used up an answer to `send`, and nothing stays in the parser (R132). -/
structure Exchange.Answers (x : Exchange) (r : Reply) (p : State) (net : Transport) (n : Nat) : Prop where
  valid : validFrame r.raw = true
  fields : ∃ a, decodeFields r.raw = some ⟨a, r.command, r.payload⟩
  received : ∃ before,
    (Memory.bytes p.buf).map .byte ++ net.received = before ++ r.raw.map .byte ++ x.net.received
  sends : ∃ k, net.sends = List.replicate k .sent ++ x.net.sends ∧ x.sent.length = n + k
  parser : x.parser.parserReset

/-- What a call owes its caller, however it ends. -/
structure Exchange.Sound (x : Exchange) (p : State) (net : Transport) (n : Nat) : Prop where
  notStopped : x.result ≠ .blockStopped
  networkError : x.result = .networkError → x.parser.parserReset
  reply : ∀ r, x.result = .reply r → x.Answers r p net n

section
variable {x : Exchange} {p q u : State} {received rest : List Received} {sends : List SendAnswer} {n : Nat}

/-- A byte that completes no frame leaves the rest of the call to answer. -/
theorem Exchange.Sound.of_more {b : Byte} (h : x.Sound q ⟨rest, sends⟩ n)
    (hsuffix : Memory.bytes q.buf <:+ Memory.bytes p.buf ++ [b]) : x.Sound p ⟨.byte b :: rest, sends⟩ n where
  notStopped := h.notStopped
  networkError := h.networkError
  reply r hr := by
    obtain ⟨hvalid, hfields, ⟨before, hreceived⟩, hsends, hparser⟩ := h.reply r hr
    obtain ⟨dropped, hdropped⟩ := hsuffix
    refine ⟨hvalid, hfields, ⟨dropped.map .byte ++ before, ?_⟩, hsends, hparser⟩
    calc (Memory.bytes p.buf).map .byte ++ .byte b :: rest
        = (Memory.bytes p.buf ++ [b]).map .byte ++ rest := by simp
      _ = dropped.map .byte ++ ((Memory.bytes q.buf).map .byte ++ rest) := by
          rw [← hdropped, List.map_append, List.append_assoc]
      _ = dropped.map .byte ++ before ++ r.raw.map .byte ++ x.net.received := by
          rw [hreceived]; simp only [List.append_assoc]

/-- A byte that completes a frame ends the call with the reply. -/
theorem Exchange.Sound.of_frame {b : Byte} {sent : List (List Byte)}
    (hvalid : validFrame (Memory.bytes p.buf ++ [b]) = true) (hu : u.parserReset) :
    Exchange.Sound ⟨replyOf (Memory.bytes p.buf ++ [b]), sent, ⟨rest, sends⟩, u⟩ p
      ⟨.byte b :: rest, sends⟩ sent.length := by
  obtain ⟨a, c, d, hfields, hreply⟩ := exists_replyOf hvalid
  rw [hreply]
  refine ⟨by simp, by simp, fun r hr => ?_⟩
  obtain rfl := CallResult.reply.inj hr
  exact ⟨hvalid, ⟨a, hfields⟩, ⟨[], by simp⟩, ⟨0, rfl, rfl⟩, hu⟩

/-- What was received before the parser's reset has no part in the reply. -/
theorem Exchange.Sound.of_gap (g : Received) (h : x.Sound q ⟨rest, sends⟩ n) (hq : q.buf = []) :
    x.Sound p ⟨g :: rest, sends⟩ n where
  notStopped := h.notStopped
  networkError := h.networkError
  reply r hr := by
    obtain ⟨hvalid, hfields, ⟨before, hreceived⟩, hsends, hparser⟩ := h.reply r hr
    have hrest : rest = before ++ r.raw.map .byte ++ x.net.received := by simpa [hq] using hreceived
    exact ⟨hvalid, hfields, ⟨(Memory.bytes p.buf).map .byte ++ g :: before, by simp [hrest]⟩, hsends, hparser⟩

/-- A frame that the Transport sent used up its answer. -/
theorem Exchange.Sound.of_send (h : x.Sound p ⟨received, sends⟩ (n + 1)) :
    x.Sound p ⟨received, .sent :: sends⟩ n where
  notStopped := h.notStopped
  networkError := h.networkError
  reply r hr := by
    obtain ⟨hvalid, hfields, hreceived, ⟨k, hsends, hsent⟩, hparser⟩ := h.reply r hr
    refine ⟨hvalid, hfields, hreceived, ⟨k + 1, ?_, by omega⟩, hparser⟩
    rw [List.replicate_succ, List.cons_append]
    exact congrArg _ hsends

end

/-- The parser after the client's `RESET` (42_client_environment.md R126). -/
def cleared (p : State) : State := deliver false .none (resync p)

theorem cleared_parserReset (p : State) : (cleared p).parserReset := ⟨rfl, rfl, rfl⟩

theorem inv_cleared (p : State) : (cleared p).Inv := State.inv_of_parserReset (cleared_parserReset p)

/-- A received answer is a byte or one of the two answers that use up a retry (42_client_environment.md R126). -/
theorem Received.byte_or_gap (g : Received) : (∃ b, g = .byte b) ∨ g = .timeout ∨ g = .closed := by
  cases g <;> simp

/-- All that `transact` does on `Timeout` or `Closed` (42_client_environment.md R126): it gives up without a retry,
and otherwise clears the parser and sends the frame again. -/
theorem transactLoop_gap {g : Received} (hg : g = .timeout ∨ g = .closed) (frame : List Byte)
    (rest : List Received) (sends : List SendAnswer) (retries : Nat) (p : State) (sent : List (List Byte)) :
    (retries = 0 ∧ transactLoop frame (g :: rest) sends retries p sent = ⟨.timeout, sent, ⟨rest, sends⟩, p⟩)
      ∨ ∃ k, retries = k + 1 ∧
        ((sends = [] ∧ transactLoop frame (g :: rest) sends retries p sent
            = ⟨.waiting, sent ++ [frame], ⟨rest, []⟩, cleared p⟩)
          ∨ (∃ more, sends = .networkError :: more ∧ transactLoop frame (g :: rest) sends retries p sent
              = ⟨.networkError, sent ++ [frame], ⟨rest, more⟩, cleared p⟩)
          ∨ ∃ more, sends = .sent :: more ∧ transactLoop frame (g :: rest) sends retries p sent
              = transactLoop frame rest more k (cleared p) (sent ++ [frame])) := by
  cases retries with
  | zero => exact .inl ⟨rfl, by obtain rfl | rfl := hg <;> rfl⟩
  | succ k =>
    refine .inr ⟨k, rfl, ?_⟩
    obtain _ | ⟨_ | _, more⟩ := sends
    case nil => exact .inl ⟨rfl, by obtain rfl | rfl := hg <;> rfl⟩
    case cons.sent => exact .inr (.inr ⟨more, rfl, by obtain rfl | rfl := hg <;> rfl⟩)
    case cons.networkError => exact .inr (.inl ⟨more, rfl, by obtain rfl | rfl := hg <;> rfl⟩)

/-- On `Timeout` or `Closed` `receive_only` gives up (42_client_environment.md R131). -/
theorem receiveLoop_gap {g : Received} (hg : g = .timeout ∨ g = .closed) (rest : List Received)
    (sends : List SendAnswer) (p : State) :
    receiveLoop (g :: rest) sends p = ⟨.timeout, [], ⟨rest, sends⟩, p⟩ := by
  obtain rfl | rfl := hg
  · rfl
  · rfl

theorem transactLoop_byte_of_more {b : Byte} {p q : State} (h : feedByte b p = .more q) (frame : List Byte)
    (rest : List Received) (sends : List SendAnswer) (retries : Nat) (sent : List (List Byte)) :
    transactLoop frame (.byte b :: rest) sends retries p sent = transactLoop frame rest sends retries q sent := by
  simp only [transactLoop, h]

theorem transactLoop_byte_of_frame {b : Byte} {p u : State} {raw : List Byte}
    (h : feedByte b p = .frame raw u) (frame : List Byte)
    (rest : List Received) (sends : List SendAnswer) (retries : Nat) (sent : List (List Byte)) :
    transactLoop frame (.byte b :: rest) sends retries p sent = ⟨replyOf raw, sent, ⟨rest, sends⟩, u⟩ := by
  simp only [transactLoop, h]

theorem receiveLoop_byte_of_more {b : Byte} {p q : State} (h : feedByte b p = .more q)
    (rest : List Received) (sends : List SendAnswer) :
    receiveLoop (.byte b :: rest) sends p = receiveLoop rest sends q := by
  simp only [receiveLoop, h]

theorem receiveLoop_byte_of_frame {b : Byte} {p u : State} {raw : List Byte}
    (h : feedByte b p = .frame raw u) (rest : List Received) (sends : List SendAnswer) :
    receiveLoop (.byte b :: rest) sends p = ⟨replyOf raw, [], ⟨rest, sends⟩, u⟩ := by
  simp only [receiveLoop, h]

/-- The receive loop of `receive_only` gives its caller what it owes. -/
theorem receiveLoop_sound (received : List Received) (sends : List SendAnswer) :
    ∀ {p : State}, p.Inv → (receiveLoop received sends p).Sound p ⟨received, sends⟩ 0 := by
  induction received with
  | nil => exact fun _ => ⟨nofun, nofun, nofun⟩
  | cons g rest ih =>
    intro p hinv
    obtain ⟨b, rfl⟩ | hg := g.byte_or_gap
    · obtain ⟨q, hq, hqinv, hsuffix⟩ | ⟨u, hu, hvalid, hreset⟩ := feedByte_cases hinv b
      · rw [receiveLoop_byte_of_more hq]
        exact (ih hqinv).of_more hsuffix
      · rw [receiveLoop_byte_of_frame hu]
        exact .of_frame hvalid hreset
    · rw [receiveLoop_gap hg]
      exact ⟨nofun, nofun, nofun⟩

/-- The same for the receive loop of `transact`. -/
theorem transactLoop_sound (frame : List Byte) (received : List Received) :
    ∀ {sends : List SendAnswer} {retries : Nat} {p : State} {sent : List (List Byte)}, p.Inv →
      (transactLoop frame received sends retries p sent).Sound p ⟨received, sends⟩ sent.length := by
  induction received with
  | nil => exact fun _ => ⟨nofun, nofun, nofun⟩
  | cons g rest ih =>
    intro sends retries p sent hinv
    obtain ⟨b, rfl⟩ | hg := g.byte_or_gap
    · obtain ⟨q, hq, hqinv, hsuffix⟩ | ⟨u, hu, hvalid, hreset⟩ := feedByte_cases hinv b
      · rw [transactLoop_byte_of_more hq]
        exact (ih hqinv).of_more hsuffix
      · rw [transactLoop_byte_of_frame hu]
        exact .of_frame hvalid hreset
    · obtain ⟨-, hx⟩ | ⟨k, -, ⟨-, hx⟩ | ⟨more, -, hx⟩ | ⟨more, rfl, hx⟩⟩ :=
        transactLoop_gap hg frame rest sends retries p sent
      all_goals rw [hx]
      · exact ⟨nofun, nofun, nofun⟩
      · exact ⟨nofun, nofun, nofun⟩
      · exact ⟨nofun, fun _ => cleared_parserReset p, nofun⟩
      · have hloop := ih (sends := more) (retries := k) (sent := sent ++ [frame]) (inv_cleared p)
        rw [List.length_append] at hloop
        exact (hloop.of_gap g rfl).of_send

/-- A call on a parser in its reset state. -/
theorem Call.run_sound (call : Call) {p : State} (hreset : p.parserReset) (net : Transport) :
    (call.run p net).Sound p net 0 := by
  have hinv := State.inv_of_parserReset hreset
  obtain ⟨received, sends⟩ := net
  cases call with
  | receiveOnly => exact receiveLoop_sound received sends hinv
  | transact frame retries =>
    obtain _ | ⟨_ | _, more⟩ := sends
    case nil => exact ⟨nofun, nofun, nofun⟩
    case cons.sent => exact (transactLoop_sound frame received hinv).of_send
    case cons.networkError => exact ⟨nofun, fun _ => hreset, nofun⟩

theorem reset_parserReset : State.reset.parserReset := ⟨rfl, rfl, rfl⟩

/-- Settles O51: what the two calls owe their caller, on a parser of their own. -/
theorem replyMatchesRawBytes : Obligations.ReplyMatchesRawBytes := by
  unfold Obligations.ReplyMatchesRawBytes
  refine ⟨fun frame retries net r hr => ?transact, fun net r hr => ?receiveOnly⟩
  case transact =>
    have hanswers := ((Call.transact frame retries).run_sound reset_parserReset net).reply r hr
    exact ⟨hanswers.valid, hanswers.fields⟩
  case receiveOnly =>
    have hanswers := (Call.receiveOnly.run_sound reset_parserReset net).reply r hr
    exact ⟨hanswers.valid, hanswers.fields⟩

/-- Settles O52: the same, of a call's result. -/
theorem clientNeverStopsTheBlock : Obligations.ClientNeverStopsTheBlock := by
  unfold Obligations.ClientNeverStopsTheBlock
  exact ⟨fun frame retries net => ((Call.transact frame retries).run_sound reset_parserReset net).notStopped,
    fun net => (Call.receiveOnly.run_sound reset_parserReset net).notStopped⟩

/-- Settles O53: what a call owes its caller when nothing is buffered at its start. -/
theorem replyLeavesRestInTransport : Obligations.ReplyLeavesRestInTransport := by
  unfold Obligations.ReplyLeavesRestInTransport
  intro call p net r hreset hr
  obtain ⟨-, -, hreceived, ⟨k, hsends, hsent⟩, hparser⟩ := (call.run_sound hreset net).reply r hr
  obtain ⟨-, -, hbuf⟩ := hreset
  rw [hbuf, Memory.bytes_nil, List.map_nil, List.nil_append] at hreceived
  rw [Nat.zero_add] at hsent
  exact ⟨hreceived, hsent ▸ hsends, hparser⟩

end Sys2Proof.Machine
end

section
/-! The counting law of `transact` (42_client_environment.md R128). -/

namespace Sys2Proof.Machine

/-- A call with some retries left has received `consumed` and has since handed the frame to `send` once for each gap
it met while retries remained (42_client_environment.md R128). -/
def Exchange.CountsSends (x : Exchange) (frame : List Byte) (received : List Received) (retries : Nat)
    (sent : List (List Byte)) : Prop :=
  ∃ consumed, received = consumed ++ x.net.received
    ∧ x.sent = sent ++ List.replicate (min (gaps consumed) retries) frame
    ∧ (∀ r, x.result = .reply r → gaps consumed ≤ retries)
    ∧ (x.result = .timeout → gaps consumed = retries + 1)

section
variable {x : Exchange} {frame : List Byte} {rest : List Received} {retries : Nat} {sent : List (List Byte)}

theorem gaps_cons_gap {g : Received} (hg : g = .timeout ∨ g = .closed) (consumed : List Received) :
    gaps (g :: consumed) = gaps consumed + 1 := by
  obtain rfl | rfl := hg
  · rfl
  · rfl

/-- A byte counts for nothing. -/
theorem Exchange.CountsSends.of_byte (b : Byte) (h : x.CountsSends frame rest retries sent) :
    x.CountsSends frame (.byte b :: rest) retries sent := by
  obtain ⟨consumed, hreceived, hsent, hreply, htimeout⟩ := h
  exact ⟨.byte b :: consumed, by rw [hreceived]; rfl, hsent, hreply, htimeout⟩

/-- A gap met while retries remain counts for one frame sent. -/
theorem Exchange.CountsSends.of_gap {g : Received} (hg : g = .timeout ∨ g = .closed)
    (h : x.CountsSends frame rest retries (sent ++ [frame])) :
    x.CountsSends frame (g :: rest) (retries + 1) sent := by
  obtain ⟨consumed, hreceived, hsent, hreply, htimeout⟩ := h
  refine ⟨g :: consumed, by rw [hreceived]; rfl, ?_, ?_, ?_⟩
  all_goals rw [gaps_cons_gap hg]
  · rw [hsent, Nat.add_min_add_right, List.replicate_succ, List.append_assoc]
    rfl
  · exact fun r hr => Nat.succ_le_succ (hreply r hr)
  · exact fun hr => congrArg Nat.succ (htimeout hr)

/-- A call that ends here, and not with a timeout, has met no gap. -/
theorem Exchange.CountsSends.of_end (hnet : x.net.received = rest) (hsent : x.sent = sent)
    (htimeout : x.result ≠ .timeout) : x.CountsSends frame rest retries sent :=
  ⟨[], by rw [hnet]; rfl, by simp [hsent, gaps], fun _ _ => Nat.zero_le _, fun h => absurd h htimeout⟩

end

/-- The receive loop of `transact` obeys the counting law. -/
theorem transactLoop_countsSends (frame : List Byte) (received : List Received) :
    ∀ {sends : List SendAnswer} {retries : Nat} {p : State} {sent : List (List Byte)}, p.Inv →
      (transactLoop frame received sends retries p sent).CountsSends frame received retries sent := by
  induction received with
  | nil => exact fun _ => .of_end rfl rfl nofun
  | cons g rest ih =>
    intro sends retries p sent hinv
    obtain ⟨b, rfl⟩ | hg := g.byte_or_gap
    · obtain ⟨q, hq, hqinv, -⟩ | ⟨u, hu, hvalid, -⟩ := feedByte_cases hinv b
      · rw [transactLoop_byte_of_more hq]
        exact (ih hqinv).of_byte b
      · obtain ⟨a, c, d, -, hreply⟩ := exists_replyOf hvalid
        rw [transactLoop_byte_of_frame hu, hreply]
        exact Exchange.CountsSends.of_byte b (.of_end rfl rfl nofun)
    · obtain ⟨rfl, hx⟩ | ⟨k, rfl, ⟨-, hx⟩ | ⟨more, -, hx⟩ | ⟨more, -, hx⟩⟩ :=
        transactLoop_gap hg frame rest sends retries p sent
      all_goals rw [hx]
      · exact ⟨[g], rfl, by simp, nofun, fun _ => gaps_cons_gap hg []⟩
      · exact Exchange.CountsSends.of_gap hg (.of_end rfl rfl nofun)
      · exact Exchange.CountsSends.of_gap hg (.of_end rfl rfl nofun)
      · exact (ih (inv_cleared p)).of_gap hg

/-- Settles O50: the first `send`, then the law of the receive loop. -/
theorem transactSendsOncePerAttempt : Obligations.TransactSendsOncePerAttempt := by
  unfold Obligations.TransactSendsOncePerAttempt
  intro frame retries net
  have hcounts : (transact frame retries net).CountsSends frame net.received retries [frame] := by
    obtain ⟨received, _ | ⟨_ | _, more⟩⟩ := net
    case nil => exact .of_end rfl rfl nofun
    case cons.sent => exact transactLoop_countsSends frame received (State.inv_of_parserReset reset_parserReset)
    case cons.networkError => exact .of_end rfl rfl nofun
  obtain ⟨consumed, hreceived, hsent, hreply, htimeout⟩ := hcounts
  exact ⟨consumed, hreceived, by rw [hsent, Nat.add_comm, List.replicate_succ]; rfl, hreply, htimeout⟩

end Sys2Proof.Machine
end

section
/-! Calls on one connection (42_client_environment.md R132): the two designs of the parser agree, and frames that follow
one another are returned one by one. -/

namespace Sys2Proof.Machine

/-- What a caller and the next call see of a call: its result, what it sent and what it left in the Transport. -/
def Exchange.outcome (x : Exchange) : CallResult × List (List Byte) × Transport := (x.result, x.sent, x.net)

/-- Equal parsers give the receive loop of `receive_only` the same outcome. -/
theorem receiveLoop_outcome_sameParser (received : List Received) (sends : List SendAnswer) :
    ∀ {p p' : State}, p.Inv → p.sameParser p' →
      (receiveLoop received sends p').outcome = (receiveLoop received sends p).outcome := by
  induction received with
  | nil => exact fun _ _ => rfl
  | cons g rest ih =>
    intro p p' hinv hsame
    obtain ⟨b, rfl⟩ | hg := g.byte_or_gap
    · obtain ⟨q, hq, hqinv, -⟩ | ⟨u, hu, -⟩ := feedByte_cases hinv b
      · obtain ⟨q', hq', hqsame⟩ := feedByte_more_sameParser hsame hq
        rw [receiveLoop_byte_of_more hq, receiveLoop_byte_of_more hq', ih hqinv hqsame]
      · obtain ⟨u', hu', -⟩ := feedByte_frame_sameParser hsame hu
        rw [receiveLoop_byte_of_frame hu, receiveLoop_byte_of_frame hu']
        rfl
    · rw [receiveLoop_gap hg, receiveLoop_gap hg]
      rfl

/-- Equal parsers give the receive loop of `transact` the same outcome. -/
theorem transactLoop_outcome_sameParser (frame : List Byte) (received : List Received) :
    ∀ {sends : List SendAnswer} {retries : Nat} {p p' : State} {sent : List (List Byte)}, p.Inv →
      p.sameParser p' →
        (transactLoop frame received sends retries p' sent).outcome
          = (transactLoop frame received sends retries p sent).outcome := by
  induction received with
  | nil => exact fun _ _ => rfl
  | cons g rest ih =>
    intro sends retries p p' sent hinv hsame
    obtain ⟨b, rfl⟩ | hg := g.byte_or_gap
    · obtain ⟨q, hq, hqinv, -⟩ | ⟨u, hu, -⟩ := feedByte_cases hinv b
      · obtain ⟨q', hq', hqsame⟩ := feedByte_more_sameParser hsame hq
        rw [transactLoop_byte_of_more hq, transactLoop_byte_of_more hq', ih hqinv hqsame]
      · obtain ⟨u', hu', -⟩ := feedByte_frame_sameParser hsame hu
        rw [transactLoop_byte_of_frame hu, transactLoop_byte_of_frame hu']
        rfl
    · have hcleared : (cleared p).sameParser (cleared p') := ⟨rfl, rfl, rfl⟩
      cases retries with
      | zero => obtain rfl | rfl := hg <;> rfl
      | succ k =>
        obtain _ | ⟨_ | _, more⟩ := sends
        case nil => obtain rfl | rfl := hg <;> rfl
        case cons.sent => obtain rfl | rfl := hg <;> exact ih (inv_cleared p) hcleared
        case cons.networkError => obtain rfl | rfl := hg <;> rfl

/-- Equal parsers give a call the same outcome. -/
theorem Call.run_outcome_sameParser (call : Call) {p p' : State} (hinv : p.Inv) (hsame : p.sameParser p')
    (net : Transport) : (call.run p' net).outcome = (call.run p net).outcome := by
  obtain ⟨received, sends⟩ := net
  cases call with
  | receiveOnly => exact receiveLoop_outcome_sameParser received sends hinv hsame
  | transact frame retries =>
    obtain _ | ⟨_ | _, more⟩ := sends
    case nil => rfl
    case cons.sent => exact transactLoop_outcome_sameParser frame received hinv hsame
    case cons.networkError => rfl

/-- A connection-wide parser is in its reset state after every call that has returned
(42_client_environment.md R132, 70_reset_and_hazards.md R168). -/
theorem Exchange.Sound.keptParser_parserReset {x : Exchange} {p : State} {net : Transport} {n : Nat}
    (h : x.Sound p net n) (hreturned : x.result.returned = true) : x.keptParser.parserReset := by
  cases hresult : x.result with
  | reply r =>
    rw [Exchange.keptParser_of_ne (by simp [hresult])]
    exact (h.reply r hresult).parser
  | timeout =>
    rw [Exchange.keptParser_of_timeout hresult]
    exact cleared_parserReset x.parser
  | networkError =>
    rw [Exchange.keptParser_of_ne (by simp [hresult])]
    exact h.networkError hresult
  | waiting => simp [hresult, CallResult.returned] at hreturned
  | blockStopped => simp [hresult, CallResult.returned] at hreturned

/-- After a call that has returned, the next one starts where it left the Transport. -/
theorem runCalls_cons_of_returned {call : Call} {c : Client} {x : Exchange}
    (hx : call.run c.callParser c.net = x) (hreturned : x.result.returned = true) (calls : List Call) :
    runCalls (call :: calls) c = (x :: (runCalls calls (c.after x)).1, (runCalls calls (c.after x)).2) := by
  simp only [runCalls, hx, hreturned, if_true]

/-- A call that has not returned is the last. -/
theorem runCalls_cons_of_not_returned {call : Call} {c : Client} {x : Exchange}
    (hx : call.run c.callParser c.net = x) (hreturned : x.result.returned = false) (calls : List Call) :
    runCalls (call :: calls) c = ([x], c.after x) := by
  simp only [runCalls, hx, hreturned, Bool.false_eq_true, if_false]

/-- Two parsers in their reset state are equal parsers. -/
theorem State.sameParser_of_parserReset {p q : State} (hp : p.parserReset) (hq : q.parserReset) :
    p.sameParser q := by
  obtain ⟨hpst, hpneed, hpbuf⟩ := hp
  obtain ⟨hqst, hqneed, hqbuf⟩ := hq
  exact ⟨hqst.trans hpst.symm, hqneed.trans hpneed.symm, hqbuf.trans hpbuf.symm⟩

/-- Both designs start every call with equal parsers, and so agree call by call. -/
theorem runCalls_designs_agree (calls : List Call) :
    ∀ {p q : State} {net : Transport}, p.parserReset →
      (runCalls calls ⟨.longLived, p, net⟩).1.map Exchange.outcome
          = (runCalls calls ⟨.perCall, q, net⟩).1.map Exchange.outcome
        ∧ (runCalls calls ⟨.longLived, p, net⟩).2.net = (runCalls calls ⟨.perCall, q, net⟩).2.net := by
  induction calls with
  | nil => exact fun _ => ⟨rfl, rfl⟩
  | cons call calls ih =>
    intro p q net hreset
    have hsound := call.run_sound hreset net
    have houtcome : (call.run State.reset net).outcome = (call.run p net).outcome :=
      call.run_outcome_sameParser (State.inv_of_parserReset hreset)
        (State.sameParser_of_parserReset hreset reset_parserReset) net
    generalize hx : call.run p net = x at hsound houtcome
    generalize hy : call.run State.reset net = y at houtcome
    obtain ⟨hresult, hsent, hnet⟩ : y.result = x.result ∧ y.sent = x.sent ∧ y.net = x.net := by
      simpa [Exchange.outcome] using houtcome
    cases hreturned : x.result.returned with
    | true =>
      rw [runCalls_cons_of_returned hx hreturned, runCalls_cons_of_returned hy (hresult ▸ hreturned)]
      obtain ⟨hrest, hleft⟩ := ih (q := q) (net := x.net) (hsound.keptParser_parserReset hreturned)
      simp only [List.map_cons, houtcome, Client.after, hnet]
      exact ⟨congrArg _ hrest, hleft⟩
    | false =>
      rw [runCalls_cons_of_not_returned hx hreturned, runCalls_cons_of_not_returned hy (hresult ▸ hreturned)]
      simp only [List.map_cons, List.map_nil, houtcome, Client.after, hnet, and_self]

/-- Settles O54: the outcomes are what the statement compares. -/
theorem parserDesignsAgree : Obligations.ParserDesignsAgree := by
  unfold Obligations.ParserDesignsAgree
  exact fun calls p q net hreset => runCalls_designs_agree calls hreset

/-- A first silent byte is one that the client feeds on. -/
theorem pushesSilently_cons_iff {b : Byte} {bs : List Byte} {s u : State} :
    PushesSilently (b :: bs) s u ↔ ∃ t, feedByte b s = .more t ∧ PushesSilently bs t u := by
  simp only [PushesSilently, pushN_cons_eq_some, feedByte_eq_more]
  constructor
  · rintro ⟨r, t, flags, hb, hbs, hflags⟩
    obtain ⟨hr, rfl⟩ : false = r.frameReady ∧ List.replicate bs.length false = flags := by
      simpa [List.replicate_succ] using hflags
    exact ⟨t, ⟨r, hb, hr.symm⟩, hbs⟩
  · rintro ⟨t, ⟨r, hb, hr⟩, hbs⟩
    exact ⟨r, t, _, hb, hbs, by rw [hr]; rfl⟩

/-- `receive_only` passes over silent bytes. -/
theorem receiveLoop_of_silent (bs : List Byte) (rest : List Received) (sends : List SendAnswer) :
    ∀ {p q : State}, PushesSilently bs p q →
      receiveLoop (bs.map .byte ++ rest) sends p = receiveLoop rest sends q := by
  induction bs with
  | nil =>
    intro p q h
    obtain rfl : p = q := by simpa [PushesSilently, pushN] using h
    rfl
  | cons b bs ih =>
    intro p q h
    obtain ⟨t, hb, hbs⟩ := pushesSilently_cons_iff.1 h
    exact (receiveLoop_byte_of_more hb _ _).trans (ih hbs)

/-- A connection-wide parser passes over silent bytes. -/
theorem streamFrames_of_silent (bs rest : List Byte) :
    ∀ {p q : State}, PushesSilently bs p q → streamFrames (bs ++ rest) p = streamFrames rest q := by
  induction bs with
  | nil =>
    intro p q h
    obtain rfl : p = q := by simpa [PushesSilently, pushN] using h
    rfl
  | cons b bs ih =>
    intro p q h
    obtain ⟨t, hb, hbs⟩ := pushesSilently_cons_iff.1 h
    simp only [List.cons_append, streamFrames, hb]
    exact ih hbs

/-- `receive_only` on a parser in its reset state returns the next frame of the Transport and nothing of what
follows it (42_client_environment.md R132). -/
theorem exists_receiveOnlyOn_frame {f : List Byte} {p : State} (hvalid : validFrame f = true)
    (hreset : p.parserReset) (rest : List Received) (sends : List SendAnswer) :
    ∃ a c d u, decodeFields f = some ⟨a, c, d⟩
      ∧ receiveOnlyOn p ⟨f.map .byte ++ rest, sends⟩ = ⟨.reply ⟨c, d, f⟩, [], ⟨rest, sends⟩, u⟩
      ∧ u.parserReset := by
  obtain ⟨a, c, d, hfields, hreply⟩ := exists_replyOf hvalid
  obtain ⟨body, b, q, rfl, hbody, hlast⟩ := exists_pushesSilently_all_but_last List.not_mem_nil hvalid hreset
  obtain ⟨u, hu, hureset⟩ := exists_feedByte_frame hlast hvalid
  refine ⟨a, c, d, u, hfields, ?_, hureset⟩
  calc receiveOnlyOn p ⟨(body ++ [b]).map .byte ++ rest, sends⟩
      = receiveLoop (body.map .byte ++ .byte b :: rest) sends p := by simp [receiveOnlyOn]
    _ = receiveLoop (.byte b :: rest) sends q := receiveLoop_of_silent body _ sends hbody
    _ = ⟨.reply ⟨c, d, body ++ [b]⟩, [], ⟨rest, sends⟩, u⟩ := by
        rw [receiveLoop_byte_of_frame hu, hreply]

/-- In either design a call starts with a parser in its reset state, if the connection-wide one is in it. -/
theorem Client.callParser_parserReset {c : Client} (h : c.parser.parserReset) : c.callParser.parserReset := by
  unfold Client.callParser
  split
  · exact reset_parserReset
  · exact h

/-- In either design the client goes on with what a call that has returned left in the Transport, and its
connection-wide parser is in its reset state again. -/
theorem Client.after_of_returned {c : Client} {x : Exchange} (h : c.parser.parserReset)
    (hx : x.keptParser.parserReset) :
    ∃ p, c.after x = ⟨c.design, p, x.net⟩ ∧ p.parserReset := by
  obtain ⟨_ | _, p, net⟩ := c
  case perCall => exact ⟨p, rfl, h⟩
  case longLived => exact ⟨x.keptParser, rfl, hx⟩

/-- Settles O55, by induction on the frames: each call returns the first one and leaves the others. -/
theorem consecutiveCallsReturnConsecutiveFrames : Obligations.ConsecutiveCallsReturnConsecutiveFrames := by
  unfold Obligations.ConsecutiveCallsReturnConsecutiveFrames
  intro design p frames rest sends hreset hvalid
  induction frames generalizing p with
  | nil => exact ⟨.nil, rfl⟩
  | cons f frames ih =>
    obtain ⟨hf, hframes⟩ := List.forall_mem_cons.1 hvalid
    have hnet : (f :: frames).flatten.map Received.byte ++ rest
        = f.map .byte ++ (frames.flatten.map .byte ++ rest) := by simp
    rw [hnet]
    generalize hc : (⟨design, p, ⟨f.map .byte ++ (frames.flatten.map .byte ++ rest), sends⟩⟩ : Client) = c
    have hcreset : c.parser.parserReset := by rw [← hc]; exact hreset
    obtain ⟨a, k, d, u, hfields, hcall, hureset⟩ := exists_receiveOnlyOn_frame hf
      (Client.callParser_parserReset hcreset) (frames.flatten.map .byte ++ rest) sends
    have hrun : Call.receiveOnly.run c.callParser c.net = _ := (congrArg _ (by rw [← hc])).trans hcall
    obtain ⟨q, hafter, hqreset⟩ := Client.after_of_returned hcreset
      (x := ⟨.reply ⟨k, d, f⟩, [], ⟨frames.flatten.map .byte ++ rest, sends⟩, u⟩) hureset
    obtain ⟨hxs, hleft⟩ := ih q hqreset hframes
    have hdesign : c.design = design := by rw [← hc]
    rw [List.length_cons, List.replicate_succ, runCalls_cons_of_returned hrun rfl, hafter, hdesign]
    exact ⟨.cons ⟨a, k, d, hfields, rfl, rfl⟩ hxs, hleft⟩

/-- A connection-wide parser takes the next frame of a stream, whatever bytes without `STX` stand before it
(41_stream_parser.md R104). -/
theorem exists_streamFrames_frame {g f : List Byte} {p : State} (hg : 0x02 ∉ g) (hvalid : validFrame f = true)
    (hreset : p.parserReset) :
    ∃ u, u.parserReset ∧ ∀ (rest : List Byte) (frames : List (List Byte)) (q : State),
      streamFrames rest u = some (frames, q) → streamFrames (g ++ f ++ rest) p = some (f :: frames, q) := by
  obtain ⟨body, b, t, rfl, hbody, hlast⟩ := exists_pushesSilently_all_but_last hg hvalid hreset
  obtain ⟨u, hu, hureset⟩ := exists_feedByte_frame hlast hvalid
  refine ⟨u, hureset, fun rest frames q hrest => ?_⟩
  calc streamFrames (g ++ (body ++ [b]) ++ rest) p
      = streamFrames (g ++ body ++ b :: rest) p := by simp
    _ = streamFrames (b :: rest) t := streamFrames_of_silent _ _ hbody
    _ = some ((body ++ [b]) :: frames, q) := by simp only [streamFrames, hu, hrest]

/-- Settles O56, by induction on the parts of the stream. -/
theorem continuousStreamYieldsItsFrames : Obligations.ContinuousStreamYieldsItsFrames := by
  unfold Obligations.ContinuousStreamYieldsItsFrames
  intro parts p hreset hparts
  induction parts generalizing p with
  | nil => exact ⟨p, rfl, hreset⟩
  | cons x parts ih =>
    obtain ⟨⟨hg, hvalid⟩, hrest⟩ := List.forall_mem_cons.1 hparts
    obtain ⟨u, hureset, hstream⟩ := exists_streamFrames_frame hg hvalid hreset
    obtain ⟨q, hq, hqreset⟩ := ih u hureset hrest
    exact ⟨q, hstream _ _ _ hq, hqreset⟩

end Sys2Proof.Machine
end
